-- ==== Sys2Proof/Word.lean ====
section
/-! DEFINITION. The byte and its plainest arithmetic (spec/00_scope.md R6, R9, R10). -/

namespace Sys2Proof

/-- A byte of KEY or BUF, an unsigned integer in 0..255 (R6). -/
abbrev Byte := BitVec 8

/-- `add8(a, b) = (a + b) mod 256` (R10); it wraps and never traps (R9, R238). -/
def add8 (a b : Byte) : Byte := a + b

/-- `sub8(a, b) = (a + 256 - b) mod 256` (R10). -/
def sub8 (a b : Byte) : Byte := a - b

/-- `xor8(a, b)`: bitwise exclusive or (R10). -/
def xor8 (a b : Byte) : Byte := a ^^^ b

/-- `not8(a) = 255 - a`, the bitwise complement (R10). -/
def not8 (a : Byte) : Byte := 255#8 - a

end Sys2Proof
end

