-- ==== Sys2Proof/Config.lean ====
section
/-! DEFINITION. What an implementation fixes (spec/00_scope.md R5) and the free values (spec/20_memory.md R75). -/

namespace Sys2Proof

/-- A bound that an implementation fixes; `none` is the source's own reading, no bound at all (R5). -/
abbrev Bound := Option Nat

/-- `n` does not exceed the bound. -/
def Bound.admits : Bound → Nat → Bool
  | none, _ => true
  | some m, n => decide (n ≤ m)

/-- `a` is an offset of a memory of that capacity: `0 .. capacity - 1`. -/
def Bound.hasOffset : Bound → Nat → Bool
  | none, _ => true
  | some m, a => decide (a < m)

/-- The three implementation parameters (R5, U14). -/
structure Params where
  /-- `KMAX`, the capacity of KEY in bytes. -/
  kmax : Bound
  /-- `NMAX`, the capacity of BUF in bytes. -/
  nmax : Bound
  /-- `IW`, the width in bits of every index register. -/
  iw : Bound
  deriving DecidableEq, Repr

namespace Params

/-- The source's own reading: `KMAX = NMAX = infinity`, `IW` unbounded (R5, U14). -/
def unbounded : Params := ⟨none, none, none⟩

/-- `v` fits a register of `IW` bits. -/
def fitsIndex (c : Params) (v : Nat) : Bool :=
  match c.iw with
  | none => true
  | some w => decide (v < 2 ^ w)

/-- R5: `KMAX >= 1` (`NMAX >= 0` says nothing more). -/
def keyCapacityPositive (c : Params) : Bool :=
  match c.kmax with
  | none => true
  | some k => decide (1 ≤ k)

/-- R5: `KMAX < 2^IW` and `NMAX + 1 < 2^IW`; an unbounded capacity needs an unbounded `IW`. -/
def indexWideEnough (c : Params) : Bool :=
  match c.iw, c.kmax, c.nmax with
  | none, _, _ => true
  | some w, some k, some n => decide (k < 2 ^ w) && decide (n + 1 < 2 ^ w)
  | some _, _, _ => false

/-- The constraints of R5 on the three parameters. -/
def wf (c : Params) : Bool := c.keyCapacityPositive && c.indexWideEnough

end Params

/-- FREE VALUE (log entry 2): what the KEY byte at an offset holds while nothing has written it since the
`epoch`-th reset (R75, U5: "one draw per byte, fixed until written"). No body: nothing is known of it. -/
opaque Config.unwrittenKey : (epoch offset : Nat) → Byte

/-- FREE VALUE (log entry 2): the same for BUF (R75, U5, and U7 after a reset that interrupts a command). -/
opaque Config.unwrittenBuf : (epoch offset : Nat) → Byte

end Sys2Proof
end

