-- ==== Sys2Proof/Syntax.lean ====
section
/-! DEFINITION. The seven operations of spec/opcode_table.json (spec/30_encoding.md R93), and what the outside world
can do in one turn (spec/30_encoding.md R97, spec/70_reset_and_hazards.md R230, R236). -/

namespace Sys2Proof

/-- The operations of the engine. None has an operand (R92). -/
inductive Instr where
  /-- host command ENC (R171) -/
  | enc
  /-- host command DEC (R172) -/
  | dec
  /-- unit operation RCD: round-count derivation (R110) -/
  | rcd
  /-- unit operation SUBF: forward substitution stage (R122) -/
  | subf
  /-- unit operation SUBI: inverse substitution stage (R124) -/
  | subi
  /-- unit operation PERMF: forward permutation stage (R142) -/
  | permf
  /-- unit operation PERMI: inverse permutation stage (R148) -/
  | permi
  deriving DecidableEq, Repr

/-- Who issues an operation: the host by a write to CMD, or the sequencer by its unit-select code (R93, R94). -/
inductive Issuer where
  | host
  | sequencer
  deriving DecidableEq, Repr

/-- One host action (R97, R236). -/
inductive HostMove where
  /-- `wr REG, v`: write value `v` to the register with that number -/
  | wr (reg v : Nat)
  /-- `rd REG`: read the register with that number -/
  | rd (reg : Nat)
  /-- `kw off, b`: `KEY[off] <- b` -/
  | kw (off : Nat) (b : Byte)
  /-- host read of `KEY[off]` (R60, R236) -/
  | kr (off : Nat)
  /-- `bw off, b`: `BUF[off] <- b` -/
  | bw (off : Nat) (b : Byte)
  /-- `br off`: host read of `BUF[off]` -/
  | br (off : Nat)
  deriving DecidableEq, Repr

/-- Whose turn it is (log entry 5). -/
inductive Turn where
  /-- the engine takes a step -/
  | engine
  /-- the host acts -/
  | host (a : HostMove)
  /-- the reset input is asserted (R230) -/
  | reset
  deriving DecidableEq, Repr

end Sys2Proof
end

