-- ==== Sys2Proof/WellFormed.lean ====
section
/-! DEFINITION. The checks on terms: who may issue an operation (spec/30_encoding.md R93, R94) and which host actions
exist (spec/10_state.md R23, spec/20_memory.md R60, spec/93_implementation_defined.md U6). -/

namespace Sys2Proof

/-- The one agent that can issue an operation (R93, R94). -/
def Instr.issuer : Instr → Issuer
  | .enc => .host
  | .dec => .host
  | .rcd => .sequencer
  | .subf => .sequencer
  | .subi => .sequencer
  | .permf => .sequencer
  | .permi => .sequencer

/-- An operation is well formed as issued by `who`: the host invokes ENC and DEC only, the sequencer the five unit
operations only (R94). -/
def Instr.wellFormed (who : Issuer) (i : Instr) : Bool := decide (i.issuer = who)

/-- The register number exists (R23: 0 to 7). -/
def registerExists (n : Nat) : Bool := decide (n ≤ 7)

/-- The access column of R23: the host can write CMD, KLEN, BLEN and ACK. -/
def registerWritable (n : Nat) : Bool := n == 0 || n == 2 || n == 3 || n == 7

/-- The value fits the register (R23: CMD and ACK have 8 bits, KLEN and BLEN have `IW`). -/
def valueFits (c : Params) (n v : Nat) : Bool :=
  if n = 2 ∨ n = 3 then c.fitsIndex v else decide (v < 256)

/-- A host action names a register or an offset that exists, writes a register the host can write, and a value that
fits it. When the action is made is another matter (R235, R236). -/
def HostMove.wellFormed (c : Params) : HostMove → Bool
  | .wr n v => registerExists n && registerWritable n && valueFits c n v
  | .rd n => registerExists n
  | .kw a _ => c.kmax.hasOffset a
  | .kr a => c.kmax.hasOffset a
  | .bw a _ => c.nmax.hasOffset a
  | .br a => c.nmax.hasOffset a

end Sys2Proof
end

