-- ==== Sys2Proof/Decode.lean ====
section
/-! DEFINITION. The decoder of the command word (format C) and of the unit-select code (format U), total, and the
encoder from the same table (spec/30_encoding.md R90, R91, R93, R95). -/

namespace Sys2Proof

/-- Why a word is no operation. -/
inductive DecodeError where
  /-- format C: `ZERO`, bits 7:3, is not `0b00000` (R90, R95) -/
  | zeroFieldSet
  /-- `OP` or `USEL` is `0b000`, which names nothing (R93) -/
  | noOperation
  /-- format C: `OP` is a unit operation's code, which the host cannot issue (R94, R95) -/
  | unitCodeFromHost
  /-- format U: the code of a host command, which the sequencer never issues (R93) -/
  | commandCodeFromSequencer
  deriving DecidableEq, Repr

/-- Field `OP`, bits 2:0 of a command word (R90). -/
def opField (w : Byte) : BitVec 3 := w.extractLsb' 0 3

/-- Field `ZERO`, bits 7:3 of a command word (R90). -/
def zeroField (w : Byte) : BitVec 5 := w.extractLsb' 3 5

/-- The code space shared by `OP` and `USEL` (R93). -/
def decodeCode (c : BitVec 3) : Option Instr :=
  if c = 0b001#3 then some .enc
  else if c = 0b010#3 then some .dec
  else if c = 0b011#3 then some .rcd
  else if c = 0b100#3 then some .subf
  else if c = 0b101#3 then some .subi
  else if c = 0b110#3 then some .permf
  else if c = 0b111#3 then some .permi
  else none

/-- The operation the host invokes by writing `w` to CMD (R90, R93, R95). -/
def decodeCommand (w : Byte) : Except DecodeError Instr :=
  if zeroField w ≠ 0#5 then .error .zeroFieldSet
  else
    match decodeCode (opField w) with
    | none => .error .noOperation
    | some i => if i.wellFormed .host then .ok i else .error .unitCodeFromHost

/-- The unit operation the sequencer starts by the code `u` (R91, R93). -/
def decodeUnit (u : BitVec 3) : Except DecodeError Instr :=
  match decodeCode u with
  | none => .error .noOperation
  | some i => if i.wellFormed .sequencer then .ok i else .error .commandCodeFromSequencer

/-- The code of an operation (R93). -/
def encodeCode : Instr → BitVec 3
  | .enc => 0b001#3
  | .dec => 0b010#3
  | .rcd => 0b011#3
  | .subf => 0b100#3
  | .subi => 0b101#3
  | .permf => 0b110#3
  | .permi => 0b111#3

/-- The word of an operation: for a host command its command word, `ZERO ++ OP` (R90); for a unit operation its code
with zeros above. -/
def encode (i : Instr) : Byte := 0b00000#5 ++ encodeCode i

/-- A word of the opcode table, whose bits above `nbits` are 0. -/
def tableWord (nbits w : Nat) : Nat := w % 2 ^ nbits

/-- The operation this model's decoders read from a word of the opcode table: a command word, else a unit-select
code. The two formats share one code space (R91), so no word is both. -/
def decodeTableWord (nbits w : Nat) : Option Instr :=
  let v := tableWord nbits w
  if v < 256 then
    match decodeCommand (BitVec.ofNat 8 v) with
    | .ok i => some i
    | .error _ =>
      if v < 8 then
        match decodeUnit (BitVec.ofNat 3 v) with
        | .ok i => some i
        | .error _ => none
      else none
  else none

end Sys2Proof
end

