-- ==== Sys2Proof/Machine/State.lean ====
section
/-! DEFINITION. The state of the engine as plain data (spec/10_state.md R20 to R41), its reset value, and the reasons a
step can stop. -/

namespace Sys2Proof.Machine

/-- The direction of the last accepted command, `STATUS.DIR`: 0 = ENC, 1 = DEC (R25, R32). -/
inductive Dir where
  | enc
  | dec
  deriving DecidableEq, Repr

/-- `PHASE`: what the sequencer is doing (R32). -/
inductive Phase where
  /-- nothing -/
  | idle
  /-- running RCD -/
  | kdf
  /-- running a substitution stage -/
  | sub
  /-- running a permutation stage -/
  | prm
  /-- waiting for the acknowledgement of a progress event -/
  | rpt
  deriving DecidableEq, Repr

/-- `STATUS.ERRCODE` (R200); codes 4 to 7 are reserved and never produced (U9). -/
inductive ErrCode where
  /-- 0, `E_NONE` -/
  | noError
  /-- 1, `E_KEY_EMPTY` (R201) -/
  | keyEmpty
  /-- 2, `E_ILLEGAL_CMD` (R202) -/
  | illegalCmd
  /-- 3, `E_LENGTH` (R203) -/
  | length
  deriving DecidableEq, Repr

/-- KEY or BUF: the bytes written since reset, as (offset, byte) pairs, offsets strictly rising. An unlisted offset
holds no written byte (R75). -/
abbrev Memory := List Host.Cell

/-- The canonical form of a memory: offsets strictly rising. (An unlisted offset holds no written byte, so no entry
can equal what an unlisted offset holds; log entry 21.) -/
def Memory.wf : Memory → Bool
  | [] => true
  | [_] => true
  | x :: y :: m => decide (x.1 < y.1) && Memory.wf (y :: m)

/-- Where a host read looks (R60). -/
inductive Place where
  | reg (n : Nat)
  | key (off : Nat)
  | buf (off : Nat)
  deriving DecidableEq, Repr

/-- What one host read returned; the model's own record (log entry 14). -/
structure HostRead where
  place : Place
  value : Nat
  deriving DecidableEq, Repr

/-- The whole state (R20). -/
structure State where
  /-- the implementation's parameters (R5, R40), kept by every step; log entry 1 -/
  params : Params
  /-- KEY memory (R21) -/
  key : Memory
  /-- BUF memory (R22) -/
  buf : Memory
  /-- `KLEN`, the key length K (R26) -/
  klen : Nat
  /-- `BLEN`, the buffer length N (R27) -/
  blen : Nat
  /-- `STATUS.BUSY` (R25) -/
  busy : Bool
  /-- `STATUS.DONE` (R25) -/
  done : Bool
  /-- `STATUS.ERR` (R25) -/
  err : Bool
  /-- `STATUS.DIR` (R25, R32) -/
  dir : Dir
  /-- `STATUS.PROGV` (R25) -/
  progv : Bool
  /-- `STATUS.ERRCODE` (R25, R200) -/
  errcode : ErrCode
  /-- `RC`, mirrored in RCOUNT (R28, R32) -/
  rc : Byte
  /-- `R`, mirrored in ROUND (R29, R32) -/
  r : Byte
  /-- `PROG` (R30) -/
  prog : BitVec 16
  /-- `PHASE` (R32) -/
  phase : Phase
  /-- `S`, the rounds completed so far (R32) -/
  sRounds : Byte
  /-- `ACC` (R33) -/
  acc : Byte
  /-- `B` (R33) -/
  b : Byte
  /-- `KB` (R33) -/
  kb : Byte
  /-- `P` (R34) -/
  p : Nat
  /-- `SKC` (R34) -/
  skc : Nat
  /-- `T` (R35) -/
  t : Nat
  /-- `PKC` (R35) -/
  pkc : Nat
  /-- `PBC` (R35) -/
  pbc : Nat
  /-- `PPREV` (R35) -/
  pprev : Nat
  /-- `Q` (R36) -/
  q : Nat
  /-- `M` (R36) -/
  m : Nat
  /-- `I` (R36) -/
  i : Nat
  /-- `SUM` (R36, R13) -/
  sum : Nat
  /-- `PTRACE`, ghost: every progress event since reset, oldest first (R39) -/
  ptrace : List (Byte × Byte)
  /-- the model's own: the turns still to come, head first; log entry 5 -/
  schedule : List Turn
  /-- the model's own: what each host read returned, oldest first; log entry 14 -/
  readLog : List HostRead
  /-- the model's own: how many resets there have been; it picks the free draws of unwritten bytes; log entry 2 -/
  epoch : Nat
  /-- the model's own: the host has read STATUS with BUSY = 0 since the last accepted command (R235, R71); log entry 10 -/
  idleSeen : Bool
  deriving DecidableEq, Repr

/-- Why a step can fault. Safe, all of them: the spec gives these cases no effect, and no accepted command reaches one
(R204). -/
inductive Fault where
  /-- a stage issued with N >= 1 and K = 0 would take a remainder by zero (U3); raised by SUBF, SUBI, PERMF, PERMI;
  safe; log entry 8 -/
  | emptyKeyArithmetic
  /-- a unit operation issued with a length above its memory's capacity would use an offset that does not exist (R69);
  raised by RCD, SUBF, SUBI, PERMF, PERMI; safe; log entry 9 -/
  | offsetOutsideMemory
  deriving DecidableEq, Repr

/-- Why a step can be refused. -/
inductive Refusal where
  /-- an instruction without a meaning yet, by its mnemonic; raised by exec's arms only; safe -/
  | notModelled (mnemonic : String)
  /-- a CMD write while BUSY = 1 (U2); raised by ENC, DEC and the host port; safe; log entry 12 -/
  | commandWhileBusy
  /-- a KLEN or BLEN write while BUSY = 1 (U2); raised by the host port; safe; log entry 12 -/
  | lengthWriteWhileBusy
  /-- a host access to KEY or BUF while BUSY = 1 (U1); raised by the host port; safe; log entry 12 -/
  | memoryAccessWhileBusy
  /-- a CMD, KLEN or BLEN write or a memory access after a completion that the host has not observed (R235); raised by
  the host port; safe; log entry 10 -/
  | completionNotObserved
  /-- a register number above 7 (U6); raised by the host port; safe; log entry 13 -/
  | noSuchRegister
  /-- a host access at an offset at or above the capacity (U6); raised by the host port; safe; log entry 13 -/
  | noSuchOffset
  /-- a host write to a register the host can only read (R23); raised by the host port; safe; log entry 11 -/
  | readOnlyRegister
  /-- a host write of a value wider than the register (R23); raised by the host port; safe; log entry 11 -/
  | valueTooWide
  /-- a unit-select code that is never issued (R93); raised by the sequencer, and never reached; safe -/
  | unitCodeNotIssued
  deriving DecidableEq, Repr

/-- The state after reset (R41); the thirteen working registers, for which R41 gives no value, hold 0 (log entry 3),
and the parameters are unbounded (log entry 1). -/
def State.reset : State where
  params := Params.unbounded
  key := []
  buf := []
  klen := 0
  blen := 0
  busy := false
  done := false
  err := false
  dir := .enc
  progv := false
  errcode := .noError
  rc := 0#8
  r := 0#8
  prog := 0#16
  phase := .idle
  sRounds := 0#8
  acc := 0#8
  b := 0#8
  kb := 0#8
  p := 0
  skc := 0
  t := 0
  pkc := 0
  pbc := 0
  pprev := 0
  q := 0
  m := 0
  i := 0
  sum := 0
  ptrace := []
  schedule := []
  readLog := []
  epoch := 0
  idleSeen := true

end Sys2Proof.Machine
end

