-- ==== Sys2Proof/Machine/Operands.lean ====
section
/-! DEFINITION. Index arithmetic, the addressing forms and the one way to read and write a byte of KEY and BUF
(spec/00_scope.md R11, R12; spec/20_memory.md R62, R69, R75, R77). -/

namespace Sys2Proof.Machine

/-- `cinc(i, d) = (i + 1) mod d` (R12). -/
def cinc (i d : Nat) : Nat := (i + 1) % d

/-- `cdec(i, d)`: step back by one, wrapping to `d - 1` on underflow (R12, R238). -/
def cdec (i d : Nat) : Nat := if i = 0 then d - 1 else i - 1

/-- `madd(i, j, d) = (i + j) mod d` (R12). -/
def madd (i j d : Nat) : Nat := (i + j) % d

/-- `msub(i, j, d) = (i + d - j) mod d` (R12): the bound is added before the subtraction (R238). -/
def msub (i j d : Nat) : Nat := (i + d - j) % d

/-- The written byte at an offset, if any (R75). -/
def Memory.get? : Memory → Nat → Option Byte
  | [], _ => none
  | (x, v) :: m, a => if a = x then some v else Memory.get? m a

/-- Write one byte (R62); keeps the canonical form. -/
def Memory.set : Memory → Nat → Byte → Memory
  | [], a, v => [(a, v)]
  | (x, u) :: m, a, v =>
    if a < x then (a, v) :: (x, u) :: m
    else if a = x then (a, v) :: m
    else (x, u) :: Memory.set m a v

/-- Read one byte: the written byte, or the free draw of an unwritten one (R75, log entry 2). -/
def Memory.read (draw : Nat → Byte) (m : Memory) (a : Nat) : Byte :=
  match m.get? a with
  | some v => v
  | none => draw a

/-- `KEY[a]` (R8). -/
def keyByte (s : State) (a : Nat) : Byte := s.key.read (Config.unwrittenKey s.epoch) a

/-- The byte at offset `a` of a BUF that holds `m`. -/
def bufRead (s : State) (m : Memory) (a : Nat) : Byte := m.read (Config.unwrittenBuf s.epoch) a

/-- `BUF[a]` (R8). -/
def bufByte (s : State) (a : Nat) : Byte := bufRead s s.buf a

/-- The jump of a permutation step: `zext_IW(KB) mod N` (R77, R142, R148). -/
def jump (kb : Byte) (n : Nat) : Nat := kb.toNat % n

/-- Do a loop body `n` times: the `for` and `while` loops of the pseudocode, whose trip counts are fixed (R8). -/
def loopN {α : Type} (body : α → α) : Nat → α → α
  | 0, x => x
  | n + 1, x => body (loopN body n x)

end Sys2Proof.Machine
end

