-- ==== Sys2Proof/Machine/Flags.lean ====
section
/-! DEFINITION. The status flags and the host's view of the eight registers (spec/10_state.md R23 to R31, R38;
spec/60_exceptions.md R200). The engine has no arithmetic flags (R38). -/

namespace Sys2Proof.Machine

/-- The direction bit (R25: 0 = ENC, 1 = DEC). -/
def Dir.bit : Dir → Bool
  | .enc => false
  | .dec => true

/-- The three bits of ERRCODE (R200). -/
def ErrCode.code : ErrCode → BitVec 3
  | .noError => 0#3
  | .keyEmpty => 1#3
  | .illegalCmd => 2#3
  | .length => 3#3

/-- `STATUS` as the host reads it: ERRCODE 7:5, PROGV 4, DIR 3, ERR 2, DONE 1, BUSY 0 (R25). -/
def statusWord (s : State) : Byte :=
  s.errcode.code ++ (BitVec.ofBool s.progv ++ (BitVec.ofBool s.dir.bit ++
    (BitVec.ofBool s.err ++ (BitVec.ofBool s.done ++ BitVec.ofBool s.busy))))

/-- `PROG` from an event: total rounds in 15:8, round index in 7:0 (R30, R176). -/
def progWord (r c : Byte) : BitVec 16 := c ++ r

/-- What a host read of a register returns (R23): CMD and ACK read as 0 (R24, R31), RCOUNT and ROUND mirror RC and R
(R28, R29). -/
def readRegister (s : State) : Nat → Option Nat
  | 0 => some 0
  | 1 => some (statusWord s).toNat
  | 2 => some s.klen
  | 3 => some s.blen
  | 4 => some s.rc.toNat
  | 5 => some s.r.toNat
  | 6 => some s.prog.toNat
  | 7 => some 0
  | _ => none

/-- A CMD write first drops the sticky results of the previous command (R170 step 1, D16). -/
def clearSticky (s : State) : State := { s with done := false, err := false, errcode := .noError }

end Sys2Proof.Machine
end

