-- ==== Sys2Proof/Machine/Ops.lean ====
section
/-! DEFINITION. The shared operations: rejecting a command, which is the engine's one exception entry
(spec/60_exceptions.md R200 to R209), accepting one (spec/43_engine.md R170), the progress event, its acknowledgement
and completion (R174 to R178), the guards of the unit operations, and the reset input (spec/70_reset_and_hazards.md
R230, R231). There is no return from an exception (R207): the next CMD write clears ERR and ERRCODE. -/

namespace Sys2Proof.Machine

/-- The three outcomes of a step of this machine. -/
abbrev Result := Host.Outcome State Fault Refusal

/-- Go on from a next state; a fault or a refusal stays. -/
def Result.map (f : State → State) : Result → Result
  | .next s => .next (f s)
  | .fault e => .fault e
  | .refused e => .refused e

/-! ### Rejection -/

/-- `raise E` (R206): ERR and ERRCODE; DONE and BUSY stay 0. There is no vector and no handler. -/
def raiseError (e : ErrCode) (s : State) : State := { s with err := true, errcode := e }

/-! ### Acceptance -/

/-- Step 5 of R170. The host has not yet seen this command end (R235). -/
def accept (d : Dir) (s : State) : State :=
  { s with dir := d, busy := true, sRounds := 0#8, phase := .kdf, idleSeen := false }

/-- Step 4 of R170: both lengths are within their capacities. -/
def lengthsFit (s : State) : Bool := s.params.kmax.admits s.klen && s.params.nmax.admits s.blen

/-- Steps 1 and 3 to 5 of R170 for a legal command word; step 2 is the decoder's. -/
def acceptCommand (d : Dir) (s : State) : State :=
  if s.klen = 0 then raiseError .keyEmpty (clearSticky s)
  else if lengthsFit s then accept d (clearSticky s)
  else raiseError .length (clearSticky s)

/-! ### Rounds, events, completion -/

/-- The round value: `S` for ENC, `RC - 1 - S` for DEC (R32, R174). -/
def roundValue (d : Dir) (rc s : Byte) : Byte :=
  match d with
  | .enc => s
  | .dec => rc - 1#8 - s

/-- The first phase of a round: substitution for ENC, permutation for DEC (R174). -/
def firstPhase : Dir → Phase
  | .enc => .sub
  | .dec => .prm

/-- Start the round of which `S` rounds went before (R174, R175). -/
def startRound (s : State) : State :=
  { s with phase := firstPhase s.dir, r := roundValue s.dir s.rc s.sRounds }

/-- `emit (R, RC)` (R176). -/
def emit (s : State) : State :=
  { s with prog := progWord s.r s.rc, progv := true, ptrace := s.ptrace ++ [(s.r, s.rc)], phase := .rpt }

/-- Completion (R178). -/
def complete (s : State) : State := { s with busy := false, done := true, phase := .idle }

/-- A write to ACK (R174, R177): with PROGV = 0 it has no effect (R31). -/
def acknowledge (s : State) : State :=
  if s.progv then
    if s.sRounds.toNat + 1 < s.rc.toNat then
      startRound { s with progv := false, sRounds := s.sRounds + 1#8 }
    else complete { s with progv := false }
  else s

/-- The transition of R174 when the running unit operation is done. -/
def unitDone (s : State) : State :=
  match s.phase, s.dir with
  | .kdf, _ => startRound s
  | .sub, .enc => { s with phase := .prm }
  | .prm, .enc => emit s
  | .prm, .dec => { s with phase := .sub }
  | .sub, .dec => emit s
  | .idle, _ => s
  | .rpt, _ => s

/-- The unit-select code the sequencer issues (R32, R93, R174): none when idle or waiting for an acknowledgement. -/
def unitSelect : Phase → Dir → Option (BitVec 3)
  | .kdf, _ => some 0b011#3
  | .sub, .enc => some 0b100#3
  | .sub, .dec => some 0b101#3
  | .prm, .enc => some 0b110#3
  | .prm, .dec => some 0b111#3
  | .idle, _ => none
  | .rpt, _ => none

/-! ### Guards of the unit operations -/

/-- A stage over the buffer: with N = 0 it does nothing at all (R128, R144); with N >= 1 it needs K >= 1 (U3) and both
lengths within capacity (R69), as acceptance has checked (R170). -/
def stage (f : State → State) (s : State) : Result :=
  if s.blen = 0 then .next s
  else if s.klen = 0 then .fault .emptyKeyArithmetic
  else if lengthsFit s then .next (f s)
  else .fault .offsetOutsideMemory

/-! ### Reset -/

/-- The reset input (R230, R231): R41's values; KEY and BUF unspecified, that is nothing written and a new epoch of
free draws (log entry 15). What is outside the engine stays: its parameters, the turns to come, the host's record. -/
def resetInput (s : State) : State :=
  { State.reset with
    params := s.params, schedule := s.schedule, readLog := s.readLog, epoch := s.epoch + 1 }

end Sys2Proof.Machine
end

