-- ==== Sys2Proof/Machine/Engine.lean ====
section
/-! DEFINITION. The two host commands (spec/43_engine.md R170 to R172). -/

namespace Sys2Proof.Machine

/-- `ENC` (R170, R171): judge the command; if accepted, the sequencer runs RCD and then the rounds of SUBF, PERMF,
event and acknowledgement, one unit operation a step (R184, log entry 4). A CMD write while BUSY = 1 is U2. -/
def execEnc (s : State) : Result :=
  if s.busy then .refused .commandWhileBusy else .next (acceptCommand .enc s)

/-- `DEC` (R170, R172): the same with DIR = 1; the rounds are PERMI, SUBI, event and acknowledgement. -/
def execDec (s : State) : Result :=
  if s.busy then .refused .commandWhileBusy else .next (acceptCommand .dec s)

end Sys2Proof.Machine
end

