-- ==== Sys2Proof/Machine/Permutation.lean ====
section
/-! DEFINITION. The permutation unit, PERMF and PERMI with the reconstruction of the end state
(spec/42_permutation.md R140 to R148). -/

namespace Sys2Proof.Machine

/-- What a permutation loop works on: `T`, `PKC`, `PBC`, `PPREV`, `B`, `KB` and BUF (R142). -/
structure PermRegs where
  t : Nat
  pkc : Nat
  pbc : Nat
  pprev : Nat
  b : Byte
  kb : Byte
  buf : Memory
  deriving DecidableEq, Repr

/-- `swap(i, j)`: two reads, then two writes; `B` keeps the byte that was at `i` (R140). -/
def swap (s : State) (i j : Nat) (x : PermRegs) : PermRegs :=
  { x with
    b := bufRead s x.buf i
    buf := (x.buf.set i (bufRead s x.buf j)).set j (bufRead s x.buf i) }

/-- Write the loop's registers back. -/
def PermRegs.into (x : PermRegs) (s : State) : State :=
  { s with t := x.t, pkc := x.pkc, pbc := x.pbc, pprev := x.pprev, b := x.b, kb := x.kb, buf := x.buf }

/-! ### PERMF -/

/-- The start of PERMF (R141). -/
def permfInit (s : State) : PermRegs :=
  { t := 0, pkc := 0, pbc := jump (keyByte s 0) s.blen, pprev := s.pprev, b := s.b, kb := keyByte s 0, buf := s.buf }

/-- One forward step (R142): the key cursor first advances, then its key byte is read. -/
def permfBody (s : State) (x : PermRegs) : PermRegs :=
  let pkc := cinc x.pkc s.klen
  let kb := keyByte s pkc
  let pbc := madd x.pbc (jump kb s.blen) s.blen
  swap s pbc x.pbc { x with pkc := pkc, kb := kb, pprev := x.pbc, pbc := pbc, t := x.t + 1 }

/-- The loop registers after the first `n` forward steps. -/
def permfAfter (s : State) (n : Nat) : PermRegs := loopN (permfBody s) n (permfInit s)

/-- The whole forward stage: `while T < N`, which is N steps (R142). -/
def permfStage (s : State) : State := (permfAfter s s.blen).into s

/-- `PERMF` (R142, R144). -/
def execPermf (s : State) : Result := stage permfStage s

/-! ### PERMI -/

/-- `usage(i)`: how often the forward stage used key index `i` (R145). -/
def usage (q m i : Nat) : Nat := if i < m then q + 1 else q

/-- The running `I` and `SUM` of the reconstruction (R146). -/
structure SumRegs where
  i : Nat
  sum : Nat
  deriving DecidableEq, Repr

/-- One term of the sum, exact (R13, R146). -/
def sumBody (s : State) (q m : Nat) (x : SumRegs) : SumRegs :=
  ⟨x.i + 1, x.sum + (keyByte s x.i).toNat * usage q m x.i⟩

/-- `I` and `SUM` after the first `n` key indices. -/
def sumAfter (s : State) (q m n : Nat) : SumRegs := loopN (sumBody s q m) n ⟨0, 0⟩

/-- The reconstruction (R145 to R147): `Q`, `M`, the sum over all K key indices, `PBC`, `PKC`, `T`. -/
def reconstruct (s : State) : State :=
  let q := (s.blen + 1) / s.klen
  let m := (s.blen + 1) % s.klen
  let x := sumAfter s q m s.klen
  { s with q := q, m := m, i := x.i, sum := x.sum, pbc := x.sum % s.blen, pkc := m, t := 0 }

/-- The start of PERMI's loop, from the reconstructed registers. -/
def permiInit (s : State) : PermRegs :=
  { t := s.t, pkc := s.pkc, pbc := s.pbc, pprev := s.pprev, b := s.b, kb := s.kb, buf := s.buf }

/-- One inverse step (R148): the key cursor first steps back, then its key byte is read. -/
def permiBody (s : State) (x : PermRegs) : PermRegs :=
  let pkc := cdec x.pkc s.klen
  let kb := keyByte s pkc
  let pbc := msub x.pbc (jump kb s.blen) s.blen
  swap s x.pbc pbc { x with pkc := pkc, kb := kb, pprev := x.pbc, pbc := pbc, t := x.t + 1 }

/-- The loop registers after the first `n` inverse steps. -/
def permiAfter (s : State) (n : Nat) : PermRegs := loopN (permiBody s) n (permiInit (reconstruct s))

/-- The whole inverse stage (R148). -/
def permiStage (s : State) : State := (permiAfter s s.blen).into (reconstruct s)

/-- `PERMI` (R148, R144). -/
def execPermi (s : State) : Result := stage permiStage s

end Sys2Proof.Machine
end

