-- ==== Sys2Proof/Machine/RoundCount.lean ====
section
/-! DEFINITION. The round-count derivation unit, RCD (spec/40_round_count.md R110). -/

namespace Sys2Proof.Machine

/-- The accumulator's start value (R110, D9). -/
def accStart : Byte := 0#8

/-- `ACC` after the key bytes at offsets below `n`, ascending (R110). -/
def rcdAcc (key : Nat → Byte) : Nat → Byte
  | 0 => accStart
  | n + 1 => add8 (rcdAcc key n) (not8 (key n))

/-- `RC` from the final `ACC`: its complement when it is below 128, unsigned (R110). -/
def rcdFinal (acc : Byte) : Byte := if acc.toNat < 128 then not8 acc else acc

/-- `RCD` (R110). With K = 0, which no accepted command has (R201), the loop is empty (log entry 7); with K above the
capacity it would read an offset that does not exist (R69). -/
def execRcd (s : State) : Result :=
  if s.params.kmax.admits s.klen then
    .next { s with
      acc := rcdAcc (keyByte s) s.klen
      rc := rcdFinal (rcdAcc (keyByte s) s.klen) }
  else .fault .offsetOutsideMemory

end Sys2Proof.Machine
end

