-- ==== Sys2Proof/Machine/Substitution.lean ====
section
/-! DEFINITION. The substitution unit, SUBF and SUBI (spec/41_substitution.md R120 to R128). -/

namespace Sys2Proof.Machine

/-- The forward byte transform, six steps in this order (R121). -/
def subfByte (b kb r c : Byte) : Byte :=
  let b1 := add8 b kb
  let b2 := xor8 b1 kb
  let b3 := sub8 b2 r
  let b4 := xor8 b3 kb
  let b5 := xor8 b4 r
  add8 b5 c

/-- The inverse byte transform, six steps in this order (R123). -/
def subiByte (b kb r c : Byte) : Byte :=
  let b1 := sub8 b c
  let b2 := xor8 b1 r
  let b3 := xor8 b2 kb
  let b4 := add8 b3 r
  let b5 := xor8 b4 kb
  sub8 b5 kb

/-- What a substitution loop works on: `P`, `SKC`, `B`, `KB` and BUF (R122). -/
structure SubstRegs where
  p : Nat
  skc : Nat
  b : Byte
  kb : Byte
  buf : Memory
  deriving DecidableEq, Repr

/-- The start of a substitution stage: `P <- 0`, `SKC <- N mod K` (R120). -/
def substInit (s : State) : SubstRegs := ⟨0, s.blen % s.klen, s.b, s.kb, s.buf⟩

/-- One position (R120) with the byte transform `f` (R122, R124): the key byte, the buffer byte, the transform, the
write, then the cursor steps back and `P` steps on. -/
def substBody (f : Byte → Byte → Byte → Byte → Byte) (s : State) (x : SubstRegs) : SubstRegs :=
  let kb := keyByte s x.skc
  let b := f (bufRead s x.buf x.p) kb s.r s.rc
  ⟨x.p + 1, cdec x.skc s.klen, b, kb, x.buf.set x.p b⟩

/-- The loop registers after the first `n` positions. -/
def substAfter (f : Byte → Byte → Byte → Byte → Byte) (s : State) (n : Nat) : SubstRegs :=
  loopN (substBody f s) n (substInit s)

/-- The whole stage: `while P < N`, which is N positions (R120). -/
def substStage (f : Byte → Byte → Byte → Byte → Byte) (s : State) : State :=
  let x := substAfter f s s.blen
  { s with p := x.p, skc := x.skc, b := x.b, kb := x.kb, buf := x.buf }

/-- `SUBF` (R122). -/
def execSubf (s : State) : Result := stage (substStage subfByte) s

/-- `SUBI` (R124). -/
def execSubi (s : State) : Result := stage (substStage subiByte) s

end Sys2Proof.Machine
end

