-- ==== Sys2Proof/Machine/Dispatch.lean ====
section
/-! DEFINITION. One arm per operation (spec/opcode_table.json). -/

namespace Sys2Proof.Machine

def exec (i : Instr) (s : State) : Host.Outcome State Fault Refusal :=
  match i with
  | .enc => Sys2Proof.Machine.execEnc s
  | .dec => Sys2Proof.Machine.execDec s
  | .rcd => Sys2Proof.Machine.execRcd s
  | .subf => Sys2Proof.Machine.execSubf s
  | .subi => Sys2Proof.Machine.execSubi s
  | .permf => Sys2Proof.Machine.execPermf s
  | .permi => Sys2Proof.Machine.execPermi s

end Sys2Proof.Machine
end

