-- ==== Sys2Proof/Machine/HostPort.lean ====
section
/-! DEFINITION. The host's actions (spec/10_state.md R23 to R31; spec/20_memory.md R60, R71; spec/43_engine.md R170, R177;
spec/60_exceptions.md R206; spec/70_reset_and_hazards.md R235, R236; spec/93_implementation_defined.md U1, U2, U6). -/

namespace Sys2Proof.Machine

/-- What R235 forbids from an accepted command until the host has observed BUSY = 0: refused as `busyReason` while
BUSY = 1, else while the completion has not been observed. -/
def whenFree (busyReason : Refusal) (s : State) (k : Result) : Result :=
  if s.busy then .refused busyReason
  else if s.idleSeen then k
  else .refused .completionNotObserved

/-- A CMD write (R170): the decoder's step 2 comes after step 1 and before the rest, which is the instruction's. -/
def writeCommand (w : Byte) (s : State) : Result :=
  match decodeCommand w with
  | .ok i => exec i s
  | .error _ => .next (raiseError .illegalCmd (clearSticky s))

/-- A host write to a register (R23, R236). -/
def writeRegister (n v : Nat) (s : State) : Result :=
  if registerExists n = false then .refused .noSuchRegister
  else if registerWritable n = false then .refused .readOnlyRegister
  else if valueFits s.params n v = false then .refused .valueTooWide
  else if n = 0 then whenFree .commandWhileBusy s (writeCommand (BitVec.ofNat 8 v) s)
  else if n = 2 then whenFree .lengthWriteWhileBusy s (.next { s with klen := v })
  else if n = 3 then whenFree .lengthWriteWhileBusy s (.next { s with blen := v })
  else .next (acknowledge s)

/-- Record what a host read returned (log entry 14). -/
def logRead (at_ : Place) (v : Nat) (s : State) : State := { s with readLog := s.readLog ++ [⟨at_, v⟩] }

/-- A STATUS read with BUSY = 0 is the observation R235 and R71 ask for. -/
def noteStatusRead (n : Nat) (s : State) : State :=
  if n = 1 ∧ s.busy = false then { s with idleSeen := true } else s

/-- A host read of a register, at any time and without side effect on the engine (R25, R60, R65). -/
def readRegisterMove (n : Nat) (s : State) : Result :=
  match readRegister s n with
  | some v => .next (noteStatusRead n (logRead (.reg n) v s))
  | none => .refused .noSuchRegister

/-- A host access to a memory offset: it must exist (U6) and the host must own the memory (U1, R235). -/
def memoryMove (exists_ : Bool) (s : State) (t : State) : Result :=
  if exists_ then whenFree .memoryAccessWhileBusy s (.next t) else .refused .noSuchOffset

/-- One host action (R97, R236). -/
def hostMove (a : HostMove) (s : State) : Result :=
  match a with
  | .wr n v => writeRegister n v s
  | .rd n => readRegisterMove n s
  | .kw off v => memoryMove (s.params.kmax.hasOffset off) s { s with key := s.key.set off v }
  | .kr off => memoryMove (s.params.kmax.hasOffset off) s (logRead (.key off) (keyByte s off).toNat s)
  | .bw off v => memoryMove (s.params.nmax.hasOffset off) s { s with buf := s.buf.set off v }
  | .br off => memoryMove (s.params.nmax.hasOffset off) s (logRead (.buf off) (bufByte s off).toNat s)

end Sys2Proof.Machine
end

