-- ==== Sys2Proof/Machine/Sequencer.lean ====
section
/-! DEFINITION. The engine's turn (spec/43_engine.md R174, R177, R184). -/

namespace Sys2Proof.Machine

/-- The engine's turn: issue the unit operation the phase selects, run it to its end, take R174's transition. In IDLE
there is nothing to do; in RPT the engine takes no step until ACK is written (R177, R212): the state stays. -/
def engineTurn (s : State) : Result :=
  match unitSelect s.phase s.dir with
  | none => .next s
  | some u =>
    match decodeUnit u with
    | .ok i => Result.map unitDone (exec i s)
    | .error _ => .refused .unitCodeNotIssued

end Sys2Proof.Machine
end

