-- ==== Sys2Proof/Machine/Fetch.lean ====
section
/-! DEFINITION. Placing an operation where the next step takes it (log entry 6): a command word as the host's next
CMD write, a unit-select code as what the sequencer issues next. -/

namespace Sys2Proof.Machine

/-- The phase in which the sequencer issues a unit operation, and the direction it needs, if it needs one (R174). -/
def issuePoint : Instr → Option (Phase × Option Dir)
  | .rcd => some (.kdf, none)
  | .subf => some (.sub, some .enc)
  | .subi => some (.sub, some .dec)
  | .permf => some (.prm, some .enc)
  | .permi => some (.prm, some .dec)
  | .enc => none
  | .dec => none

/-- The host's next action is the CMD write of `v`, and the host may make it: no command is running and the host has
seen that. -/
def placeCommand (v : Nat) (s : State) : State :=
  { s with
    schedule := .host (.wr 0 v) :: s.schedule
    phase := .idle, busy := false, progv := false, idleSeen := true }

/-- The engine's turn is next and the sequencer is in the phase that issues the operation; a command is running. -/
def placeUnit (ph : Phase) (d : Option Dir) (s : State) : State :=
  { s with
    schedule := .engine :: s.schedule
    phase := ph, dir := d.getD s.dir, busy := true, progv := false, idleSeen := false }

/-- Place a word of the opcode table. -/
def placeWord (nbits w : Nat) (s : State) : State :=
  match (decodeTableWord nbits w).bind issuePoint with
  | some (ph, d) => placeUnit ph d s
  | none => placeCommand (tableWord nbits w) s

end Sys2Proof.Machine
end

