-- ==== Sys2Proof/Machine/Turns.lean ====
section
/-! DEFINITION. One turn of one agent (spec/10_state.md R20; spec/70_reset_and_hazards.md R230, R236). -/

namespace Sys2Proof.Machine

/-- One turn, whoever's it is: the engine's (R174), the host's (R236), or the reset input's (R230). -/
def takeTurn (a : Turn) (s : State) : Host.Outcome State Fault Refusal :=
  match a with
  | .engine => engineTurn s
  | .host m => hostMove m s
  | .reset => .next (resetInput s)

end Sys2Proof.Machine
end

