-- ==== Sys2Proof/Machine/Step.lean ====
section
/-! DEFINITION. One step of the machine: the turn at the head of the schedule, or the engine's (log entry 5). -/

namespace Sys2Proof.Machine

/-- One step (R184): the head of the schedule is consumed; with nothing scheduled the engine goes on by itself. -/
def step (s : State) : Host.Outcome State Fault Refusal :=
  match s.schedule with
  | [] => engineTurn s
  | a :: rest => takeTurn a { s with schedule := rest }

/-- `s` with a word of the opcode table placed where the next step takes it (log entry 6). -/
def State.withFetchWord (s : State) (nbits w : Nat) : State := placeWord nbits w s

end Sys2Proof.Machine
end

