-- ==== Sys2Proof/Safety.lean ====
section
/-! DEFINITION. The terms the claims use: the invariant of a safe run (spec/10_state.md R25, R32, R42), what a compliant
host may do (spec/70_reset_and_hazards.md R235, R236), the turns of one whole command (spec/30_encoding.md R97), and the
engine's results as functions of key and buffer (spec/40_round_count.md R113; spec/41_substitution.md R121, R123, R126;
spec/42_permutation.md R154; spec/43_engine.md R179). -/

namespace Sys2Proof.Machine

/-- The invariant of a safe run: R42, with R25 and R32 on the flags, R5 on the parameters and the lengths, and the
canonical form of the memories. -/
structure Invariant (s : State) : Prop where
  /-- R5 -/
  params : s.params.wf = true
  keyCanonical : s.key.wf = true
  bufCanonical : s.buf.wf = true
  /-- R21: only offsets below KMAX exist -/
  keyInside : ∀ c ∈ s.key, s.params.kmax.hasOffset c.1 = true
  /-- R22: only offsets below NMAX exist -/
  bufInside : ∀ c ∈ s.buf, s.params.nmax.hasOffset c.1 = true
  /-- R26, R27: the lengths fit their registers -/
  klenFits : s.params.fitsIndex s.klen = true
  blenFits : s.params.fitsIndex s.blen = true
  /-- R32: BUSY = 1 exactly when PHASE is not IDLE -/
  busyPhase : s.busy = true ↔ s.phase ≠ .idle
  /-- R32: PROGV = 1 exactly when PHASE is RPT -/
  progvPhase : s.progv = true ↔ s.phase = .rpt
  /-- R25: at most one of BUSY, DONE, ERR -/
  busyNotDone : ¬ (s.busy = true ∧ s.done = true)
  busyNotErr : ¬ (s.busy = true ∧ s.err = true)
  doneNotErr : ¬ (s.done = true ∧ s.err = true)
  /-- R25: ERRCODE is 0 when ERR = 0, and names a cause when ERR = 1 -/
  errHasCode : s.err = true ↔ s.errcode ≠ .noError
  /-- R42: 1 <= KLEN <= KMAX and BLEN <= NMAX while BUSY -/
  keyNonEmpty : s.busy = true → 1 ≤ s.klen
  lengths : s.busy = true → lengthsFit s = true
  /-- R32: RC is 0 before the first accepted command, else at least 128 -/
  roundCount : s.rc = 0#8 ∨ 128 ≤ s.rc.toNat
  /-- R170: no round is completed before RCD is -/
  noRoundYet : s.phase = .kdf → s.sRounds = 0#8
  /-- R42: in a round, 128 <= RC, S < RC, and R is the round value -/
  inRound : s.phase = .sub ∨ s.phase = .prm ∨ s.phase = .rpt →
    128 ≤ s.rc.toNat ∧ s.sRounds.toNat < s.rc.toNat ∧ s.r = roundValue s.dir s.rc s.sRounds
  /-- R176: while an event waits, PROG and the end of PTRACE hold it -/
  eventPending : s.phase = .rpt → s.prog = progWord s.r s.rc ∧ s.ptrace.getLast? = some (s.r, s.rc)
  /-- R30: every event issued has a round index below its total, a legal RoundCount -/
  events : ∀ e ∈ s.ptrace, 128 ≤ e.2.toNat ∧ e.1.toNat < e.2.toNat
  /-- R235: while a command runs the host has not seen it end -/
  unseen : s.busy = true → s.idleSeen = false
  /-- R34 to R36: every index register fits `IW` bits -/
  indexRegisters : ∀ v ∈ [s.p, s.skc, s.t, s.pkc, s.pbc, s.pprev, s.q, s.m, s.i], s.params.fitsIndex v = true

/-- What R236 lets the host do in this state, over the actions that exist: registers may be read and ACK written at any
time, everything else only after the last accepted command has been seen to end. -/
def hostMay (s : State) (a : HostMove) : Bool :=
  a.wellFormed s.params &&
    match a with
    | .rd _ => true
    | .wr n _ => n == 7 || (!s.busy && s.idleSeen)
    | .kw _ _ => !s.busy && s.idleSeen
    | .kr _ => !s.busy && s.idleSeen
    | .bw _ _ => !s.busy && s.idleSeen
    | .br _ => !s.busy && s.idleSeen

/-- A state in which a legal command word is accepted by the host port (R170, R232, R235). -/
structure Ready (s : State) : Prop where
  inv : Invariant s
  notBusy : s.busy = false
  idleSeen : s.idleSeen = true
  keyNonEmpty : 1 ≤ s.klen
  lengths : lengthsFit s = true

/-! ### The turns of a whole command -/

/-- `c` rounds: each is two unit operations and the acknowledgement of its event (R171, R172). -/
def roundTurns (c : Nat) : List Turn :=
  (List.replicate c [Turn.engine, Turn.engine, Turn.host (.wr 7 0)]).flatten

/-- A whole command (R97 `enc` or `dec`, then `run`): the CMD write, RCD, `c` rounds, and the STATUS read that sees the
completion. -/
def commandTurns (w c : Nat) : List Turn :=
  (Turn.host (.wr 0 w) :: Turn.engine :: roundTurns c) ++ [Turn.host (.rd 1)]

/-- The command word of a direction (R93). -/
def commandWord : Dir → Nat
  | .enc => 1
  | .dec => 2

/-- The direction of the command that undoes another's. -/
def Dir.opposite : Dir → Dir
  | .enc => .dec
  | .dec => .enc

/-- Run a whole command of `c` rounds. -/
def runCommand (d : Dir) (c : Nat) (s : State) : Host.Outcome State Fault Refusal :=
  Host.Core.run Sys2Proof.core (3 * c + 3) { s with schedule := commandTurns (commandWord d) c }

end Sys2Proof.Machine

/-! ### The engine's results as functions -/

namespace Sys2Proof.Spec

open Sys2Proof.Machine (Dir)

/-- `g 0 + g 1 + ... + g (n-1)`. -/
def sumTo (g : Nat → Nat) : Nat → Nat
  | 0 => 0
  | n + 1 => sumTo g n + g n

/-- The final accumulator by R113's closed form. -/
def accumulator (key : Nat → Byte) (k : Nat) : Nat :=
  (256 - (k + sumTo (fun i => (key i).toNat) k) % 256) % 256

/-- RoundCount by R113's closed form. -/
def roundCount (key : Nat → Byte) (k : Nat) : Nat :=
  if 128 ≤ accumulator key k then accumulator key k else 255 - accumulator key k

/-- `subf_byte` (R121). -/
def subf (b kb r c : Byte) : Byte := (((((b + kb) ^^^ kb) - r) ^^^ kb) ^^^ r) + c

/-- `subi_byte` (R123). -/
def subi (b kb r c : Byte) : Byte := (((((b - c) ^^^ r) ^^^ kb) + r) ^^^ kb) - kb

/-- A substitution stage, position by position, with the closed form of its cursor (R126, R129). -/
def substitute (f : Byte → Byte → Byte → Byte → Byte) (key : Nat → Byte) (k n : Nat) (r c : Byte)
    (buf : Nat → Byte) : Nat → Byte :=
  fun a => if a < n then f (buf a) (key ((n - a) % k)) r c else buf a

/-- The buffer cursor `c(t)` of R154, closed form. -/
def cursor (key : Nat → Byte) (k n t : Nat) : Nat := sumTo (fun j => (key (j % k)).toNat) (t + 1) % n

/-- Exchange what is at `i` and `j` (R140). -/
def exchange {α : Type} (f : Nat → α) (i j : Nat) : Nat → α :=
  fun a => if a = i then f j else if a = j then f i else f a

/-- The forward chain: `swap(c(1), c(0))`, ..., `swap(c(t), c(t-1))` in this order (R154). -/
def walk {α : Type} (c : Nat → Nat) : Nat → (Nat → α) → Nat → α
  | 0, f => f
  | t + 1, f => exchange (walk c t f) (c (t + 1)) (c t)

/-- The backward chain: `swap(c(t), c(t-1))`, ..., `swap(c(1), c(0))` in this order (R149). -/
def unwalk {α : Type} (c : Nat → Nat) : Nat → (Nat → α) → Nat → α
  | 0, f => f
  | t + 1, f => unwalk c t (exchange f (c (t + 1)) (c t))

/-- One round of ENC (R179). -/
def encRound (key : Nat → Byte) (k n : Nat) (c r : Byte) (buf : Nat → Byte) : Nat → Byte :=
  walk (cursor key k n) n (substitute subf key k n r c buf)

/-- One round of DEC (R179). -/
def decRound (key : Nat → Byte) (k n : Nat) (c r : Byte) (buf : Nat → Byte) : Nat → Byte :=
  substitute subi key k n r c (unwalk (cursor key k n) n buf)

/-- The first `j` rounds of a command whose RoundCount is `c`: ENC with round values 0, 1, ..., DEC with c-1, c-2, ...
(R173, R179). -/
def rounds (d : Dir) (key : Nat → Byte) (k n c : Nat) (buf : Nat → Byte) : Nat → Nat → Byte
  | 0 => buf
  | j + 1 =>
    match d with
    | .enc => encRound key k n (BitVec.ofNat 8 c) (BitVec.ofNat 8 j) (rounds d key k n c buf j)
    | .dec => decRound key k n (BitVec.ofNat 8 c) (BitVec.ofNat 8 (c - 1 - j)) (rounds d key k n c buf j)

/-- `enc(B, key)` and `dec(B, key)` of R179. -/
def command (d : Dir) (key : Nat → Byte) (k n : Nat) (buf : Nat → Byte) : Nat → Byte :=
  rounds d key k n (roundCount key k) buf (roundCount key k)

/-- The progress events of a command, in order (R176): (0, c), (1, c), ... for ENC, (c-1, c), ..., (0, c) for DEC. -/
def progressEvents (d : Dir) (c : Nat) : List (Byte × Byte) :=
  match d with
  | .enc => (List.range c).map (fun j => (BitVec.ofNat 8 j, BitVec.ofNat 8 c))
  | .dec => (List.range c).map (fun j => (BitVec.ofNat 8 (c - 1 - j), BitVec.ofNat 8 c))

end Sys2Proof.Spec
end

