-- ==== Sys2Proof/Certificates/Slice0/Obligations.lean ====
section
/-! DEFINITION. The statements for the provers. Each docstring names the rule of spec/ it formalises. -/

open Sys2Proof Sys2Proof.Machine

/-! ### Encoding and issue -/

/-- R93: the whole code space. Of the 256 command words, 0x01 is ENC, 0x02 is DEC and every other is illegal; of the
eight unit-select codes, 011 to 111 are the five unit operations and no other names one. -/
def Obligations.OnlyTheTablesCodesDecode : Prop :=
  (∀ (w : Byte) (i : Instr), decodeCommand w = .ok i ↔ (w = 0x01#8 ∧ i = .enc) ∨ (w = 0x02#8 ∧ i = .dec)) ∧
  (∀ (u : BitVec 3) (i : Instr), decodeUnit u = .ok i ↔
    (u = 0b011#3 ∧ i = .rcd) ∨ (u = 0b100#3 ∧ i = .subf) ∨ (u = 0b101#3 ∧ i = .subi) ∨
    (u = 0b110#3 ∧ i = .permf) ∨ (u = 0b111#3 ∧ i = .permi))

/-- R90, R93: the word of every operation, written out from the table, and its decoding. -/
def Obligations.TableWordsDecodeBack : Prop :=
  (∀ i : Instr, decodeTableWord 8 (encode i).toNat = some i) ∧
  encode .enc = 0b00000001#8 ∧ encode .dec = 0b00000010#8 ∧ encode .rcd = 0b00000011#8 ∧
  encode .subf = 0b00000100#8 ∧ encode .subi = 0b00000101#8 ∧ encode .permf = 0b00000110#8 ∧
  encode .permi = 0b00000111#8

/-- R170, R235: a CMD write at the head of the turns, when the host owns the engine, runs the command it decodes to. -/
def Obligations.StepRunsTheWrittenCommand : Prop :=
  ∀ (s : State) (w : Byte) (i : Instr) (rest : List Turn),
    s.schedule = .host (.wr 0 w.toNat) :: rest → s.busy = false → s.idleSeen = true → decodeCommand w = .ok i →
    step s = exec i { s with schedule := rest }

/-- R91, R174: on the engine's turn (scheduled, or by default when nothing is) the step runs the unit operation whose
code the sequencer selects, and then takes the transition of its phase; the codes selected are those of R93. -/
def Obligations.StepRunsTheIssuedUnitOperation : Prop :=
  (∀ (s s' : State) (u : BitVec 3) (i : Instr),
    ((s.schedule = [] ∧ s' = s) ∨ ∃ rest, s.schedule = .engine :: rest ∧ s' = { s with schedule := rest }) →
    unitSelect s.phase s.dir = some u → decodeUnit u = .ok i →
    step s = Result.map unitDone (exec i s')) ∧
  (∀ d : Dir, unitSelect .kdf d = some 0b011#3 ∧ unitSelect .idle d = none ∧ unitSelect .rpt d = none) ∧
  unitSelect .sub .enc = some 0b100#3 ∧ unitSelect .sub .dec = some 0b101#3 ∧
  unitSelect .prm .enc = some 0b110#3 ∧ unitSelect .prm .dec = some 0b111#3

/-! ### Arithmetic -/

/-- R10: the four byte operations on numbers, their inverse laws and the corner values. -/
def Obligations.ByteOperationsWrap : Prop :=
  (∀ a b : Byte, (add8 a b).toNat = (a.toNat + b.toNat) % 256 ∧ (sub8 a b).toNat = (a.toNat + 256 - b.toNat) % 256 ∧
    (xor8 a b).toNat = a.toNat ^^^ b.toNat ∧ (not8 a).toNat = 255 - a.toNat ∧ not8 a = xor8 a 0xFF#8) ∧
  (∀ a b : Byte, sub8 (add8 a b) b = a ∧ add8 (sub8 a b) b = a ∧ xor8 (xor8 a b) b = a ∧ not8 (not8 a) = a) ∧
  (∀ a : Byte, add8 a 0#8 = a ∧ sub8 a 0#8 = a ∧ xor8 a 0#8 = a) ∧
  add8 255#8 1#8 = 0#8 ∧ sub8 0#8 1#8 = 255#8 ∧
  not8 0#8 = 255#8 ∧ not8 127#8 = 128#8 ∧ not8 128#8 = 127#8 ∧ not8 255#8 = 0#8

/-- R12: the circular index operations, their inverse laws, the bound 1, and the size of the intermediate sums. -/
def Obligations.IndexOperationsWrap : Prop :=
  ∀ d i : Nat, 1 ≤ d → i < d →
    cinc i d = (i + 1) % d ∧ cdec i d = (if i = 0 then d - 1 else i - 1) ∧ cdec (cinc i d) d = i ∧ i + 1 < 2 * d ∧
    (d = 1 → cinc i d = 0 ∧ cdec i d = 0) ∧
    ∀ j : Nat, j < d →
      madd i j d = (i + j) % d ∧ msub i j d = (i + d - j) % d ∧ msub (madd i j d) j d = i ∧
      i + j < 2 * d ∧ i + d - j < 2 * d ∧ (d = 1 → madd i j d = 0 ∧ msub i j d = 0)

/-! ### Reset and the invariant -/

/-- R41: the values the spec gives for reset, and the first CMD write after it. (The working registers, for which R41
gives no value, are not mentioned.) -/
def Obligations.ResetControlState : Prop :=
  statusWord State.reset = 0#8 ∧ State.reset.phase = .idle ∧ State.reset.klen = 0 ∧ State.reset.blen = 0 ∧
  State.reset.rc = 0#8 ∧ State.reset.r = 0#8 ∧ State.reset.sRounds = 0#8 ∧ State.reset.prog = 0#16 ∧
  State.reset.ptrace = [] ∧
  (∀ i : Instr, i = .enc ∨ i = .dec → exec i State.reset = .next { State.reset with err := true, errcode := .keyEmpty })

/-- R230, R231, R41: the reset input in any state, a running command's too: control state cleared, idle, no event
pending, and nothing of what went on before survives. (That KEY and BUF then read as new free draws is the model's
form of R41's unspecified bytes, log entries 2 and 15, and so is what the input leaves alone.) -/
def Obligations.ResetInputClearsEverything : Prop :=
  ∀ (s : State) (rest : List Turn), s.schedule = .reset :: rest →
    ∃ t, step s = .next t ∧ statusWord t = 0#8 ∧ t.phase = .idle ∧ t.klen = 0 ∧ t.blen = 0 ∧ t.rc = 0#8 ∧ t.r = 0#8 ∧
      t.sRounds = 0#8 ∧ t.prog = 0#16 ∧ t.ptrace = [] ∧ t.progv = false ∧
      t.schedule = rest ∧ t.params = s.params ∧
      ∀ s2 : State, s2.schedule = s.schedule → s2.params = s.params → s2.readLog = s.readLog → s2.epoch = s.epoch →
        step s2 = .next t

/-- The invariant holds at reset. -/
def Obligations.SafeAtReset : Prop := Invariant State.reset

/-- R42, with R25, R30, R32 and R34 to R36: every step from a state that meets the invariant keeps it, whoever's turn
it is. -/
def Obligations.EveryStepKeepsSafety : Prop :=
  ∀ s t : State, Invariant s → step s = .next t → Invariant t

/-- R204: from a state that meets the invariant no step faults, and the engine's turn always answers a next state. -/
def Obligations.NothingFailsOnceAccepted : Prop :=
  ∀ s : State, Invariant s → (∀ e, step s ≠ .fault e) ∧ ∃ t, engineTurn s = .next t

/-! ### The round-count derivation -/

/-- R113 (and R110's frame): RCD on every key within capacity. ACC and RC by the closed form, nothing else changed; RC
depends on length plus byte sum modulo 256 only, and permuting the key changes nothing. -/
def Obligations.RcdClosedForm : Prop :=
  (∀ s : State, 1 ≤ s.klen → s.params.kmax.admits s.klen = true →
    exec .rcd s = .next { s with
      acc := BitVec.ofNat 8 (Spec.accumulator (keyByte s) s.klen)
      rc := BitVec.ofNat 8 (Spec.roundCount (keyByte s) s.klen) } ∧
    (Spec.accumulator (keyByte s) s.klen : Int) =
      (255 * (s.klen : Int) - (Spec.sumTo (fun i => (keyByte s i).toNat) s.klen : Int)) % 256) ∧
  (∀ s1 s2 t1 t2 : State, 1 ≤ s1.klen → 1 ≤ s2.klen → exec .rcd s1 = .next t1 → exec .rcd s2 = .next t2 →
    (s1.klen + Spec.sumTo (fun i => (keyByte s1 i).toNat) s1.klen) % 256 =
      (s2.klen + Spec.sumTo (fun i => (keyByte s2 i).toNat) s2.klen) % 256 → t1.rc = t2.rc) ∧
  (∀ (s1 s2 t1 t2 : State) (f : Nat → Nat), 1 ≤ s1.klen → s1.klen = s2.klen → exec .rcd s1 = .next t1 →
    exec .rcd s2 = .next t2 →
    (∀ i, i < s1.klen → f i < s1.klen ∧ keyByte s2 i = keyByte s1 (f i)) →
    (∀ i j, i < s1.klen → j < s1.klen → f i = f j → i = j) → t1.rc = t2.rc)

/-- R111: the range of RoundCount, by the accumulator's half, and the greatest round value. -/
def Obligations.RoundCountInRange : Prop :=
  (∀ s t : State, exec .rcd s = .next t → 128 ≤ t.rc.toNat ∧ t.rc.toNat ≤ 255 ∧
    (128 ≤ t.acc.toNat → t.rc = t.acc) ∧ (t.acc.toNat ≤ 127 → t.rc.toNat = 255 - t.acc.toNat)) ∧
  (∀ s : State, Invariant s → s.phase = .sub ∨ s.phase = .prm ∨ s.phase = .rpt → s.r.toNat ≤ 254)

/-- R112: RCD on equal key bytes and equal KLEN gives equal ACC and RC, whatever else the states hold. -/
def Obligations.RoundCountDependsOnKeyOnly : Prop :=
  ∀ s1 s2 t1 t2 : State, s1.klen = s2.klen → (∀ i, i < s1.klen → keyByte s1 i = keyByte s2 i) →
    exec .rcd s1 = .next t1 → exec .rcd s2 = .next t2 → t1.rc = t2.rc ∧ t1.acc = t2.acc

/-! ### The substitution stages -/

/-- R120 to R122, R126, R129: SUBF. Every byte of the buffer is the transform of itself with its key byte, all others
and every register but P, SKC, B, KB are as before. (What those four hold afterwards is the pseudocode's, log
entry 16.) -/
def Obligations.SubfResult : Prop :=
  ∀ s : State, 1 ≤ s.blen → 1 ≤ s.klen → lengthsFit s = true →
    ∃ t, exec .subf s = .next t ∧
      (∀ a, bufByte t a = Spec.substitute Spec.subf (keyByte s) s.klen s.blen s.r s.rc (bufByte s) a) ∧
      t = { s with
        p := s.blen, skc := 0, b := bufByte t (s.blen - 1), kb := keyByte s (1 % s.klen), buf := t.buf }

/-- R120, R123, R124: SUBI, with the same cursor and the inverse transform. (P, SKC, B, KB: log entry 16.) -/
def Obligations.SubiResult : Prop :=
  ∀ s : State, 1 ≤ s.blen → 1 ≤ s.klen → lengthsFit s = true →
    ∃ t, exec .subi s = .next t ∧
      (∀ a, bufByte t a = Spec.substitute Spec.subi (keyByte s) s.klen s.blen s.r s.rc (bufByte s) a) ∧
      t = { s with
        p := s.blen, skc := 0, b := bufByte t (s.blen - 1), kb := keyByte s (1 % s.klen), buf := t.buf }

/-- R125: the byte transforms are mutually inverse for all 8-bit arguments, and so are the stages. -/
def Obligations.SubstitutionStagesInvert : Prop :=
  (∀ b kb r c : Byte, subiByte (subfByte b kb r c) kb r c = b ∧ subfByte (subiByte b kb r c) kb r c = b) ∧
  (∀ s : State, 1 ≤ s.klen → lengthsFit s = true →
    (∃ t u, exec .subf s = .next t ∧ exec .subi t = .next u ∧ ∀ a, bufByte u a = bufByte s a) ∧
    (∃ t u, exec .subi s = .next t ∧ exec .subf t = .next u ∧ ∀ a, bufByte u a = bufByte s a))

/-- R128, R144: with N = 0 the four stages change no state at all, whatever the key length. -/
def Obligations.EmptyBufferStagesDoNothing : Prop :=
  ∀ s : State, s.blen = 0 →
    exec .subf s = .next s ∧ exec .subi s = .next s ∧ exec .permf s = .next s ∧ exec .permi s = .next s

/-- U3, R69: a stage over a buffer that is not empty stops only outside every accepted command: with an empty key, or
with a length above its capacity; RCD stops exactly with a key length above capacity, and runs its empty loop on an
empty key. (That these stops are faults of these names, and that RCD runs there, are the model's choices, log entries
7, 8 and 9.) -/
def Obligations.UnitOperationsStopOnlyOutsideCommands : Prop :=
  (∀ (s : State) (i : Instr), i = .subf ∨ i = .subi ∨ i = .permf ∨ i = .permi →
    (1 ≤ s.blen → s.klen = 0 → exec i s = .fault .emptyKeyArithmetic) ∧
    (1 ≤ s.blen → 1 ≤ s.klen → lengthsFit s = false → exec i s = .fault .offsetOutsideMemory) ∧
    (∀ e, exec i s = .fault e → 1 ≤ s.blen ∧ (s.klen = 0 ∨ lengthsFit s = false))) ∧
  (∀ s : State, s.params.kmax.admits s.klen = false ↔ exec .rcd s = .fault .offsetOutsideMemory) ∧
  (∀ s : State, s.klen = 0 → exec .rcd s = .next { s with acc := 0#8, rc := 255#8 })

/-! ### The permutation stages -/

/-- R141 to R143, R154: PERMF. The buffer after the chain of N dependent swaps, the end state of the cursors, and
every other register as before. (What KB and B hold afterwards is the pseudocode's, log entry 16.) -/
def Obligations.PermfResult : Prop :=
  ∀ s : State, 1 ≤ s.blen → 1 ≤ s.klen → lengthsFit s = true →
    ∃ t, exec .permf s = .next t ∧
      (∀ a, bufByte t a = Spec.walk (Spec.cursor (keyByte s) s.klen s.blen) s.blen (bufByte s) a) ∧
      t = { s with
        t := s.blen, pkc := s.blen % s.klen
        pbc := Spec.cursor (keyByte s) s.klen s.blen s.blen
        pprev := Spec.cursor (keyByte s) s.klen s.blen (s.blen - 1)
        kb := keyByte s (s.blen % s.klen)
        b := bufByte t (Spec.cursor (keyByte s) s.klen s.blen (s.blen - 1))
        buf := t.buf }

/-- R145 to R149: PERMI. The buffer after the same swaps in reverse order, the reconstruction registers, the end state
of the cursors, and every other register as before. (What KB, B and I hold afterwards is the model's reading of the
pseudocode, log entry 16.) -/
def Obligations.PermiResult : Prop :=
  ∀ s : State, 1 ≤ s.blen → 1 ≤ s.klen → lengthsFit s = true →
    ∃ t, exec .permi s = .next t ∧
      (∀ a, bufByte t a = Spec.unwalk (Spec.cursor (keyByte s) s.klen s.blen) s.blen (bufByte s) a) ∧
      t = { s with
        q := (s.blen + 1) / s.klen, m := (s.blen + 1) % s.klen, i := s.klen
        sum := Spec.sumTo (fun i => (keyByte s i).toNat * usage ((s.blen + 1) / s.klen) ((s.blen + 1) % s.klen) i) s.klen
        t := s.blen, pkc := 1 % s.klen
        pbc := Spec.cursor (keyByte s) s.klen s.blen 0
        pprev := Spec.cursor (keyByte s) s.klen s.blen 1
        kb := keyByte s (1 % s.klen)
        b := bufByte t (Spec.cursor (keyByte s) s.klen s.blen 0)
        buf := t.buf }

/-- R152, with R145 to R147: for every K >= 1 and N >= 1 the closed form reconstructs where the forward walk ended:
its buffer cursor, and one past its key cursor. The usage counts sum to N + 1 and the sum stays within R13's bound. -/
def Obligations.ReconstructionFindsTheEndOfTheWalk : Prop :=
  ∀ s t : State, 1 ≤ s.blen → 1 ≤ s.klen → exec .permf s = .next t →
    (reconstruct s).pbc = t.pbc ∧ (reconstruct s).pkc = (t.pkc + 1) % s.klen ∧ (reconstruct s).t = 0 ∧
    (reconstruct s).pkc = (s.blen + 1) % s.klen ∧
    (reconstruct s).sum =
      Spec.sumTo (fun i => (keyByte s i).toNat * usage (reconstruct s).q (reconstruct s).m i) s.klen ∧
    (reconstruct s).pbc = (reconstruct s).sum % s.blen ∧
    Spec.sumTo (fun i => usage (reconstruct s).q (reconstruct s).m i) s.klen = s.blen + 1 ∧
    (reconstruct s).sum ≤ 255 * (s.blen + 1)

/-- R150: PERMI after PERMF, and PERMF after PERMI, restore the buffer; PERMI does the forward swaps in reverse. -/
def Obligations.PermutationStagesInvert : Prop :=
  ∀ s : State, 1 ≤ s.klen → lengthsFit s = true →
    (∃ t u, exec .permf s = .next t ∧ exec .permi t = .next u ∧
      (∀ a, bufByte t a = Spec.walk (Spec.cursor (keyByte s) s.klen s.blen) s.blen (bufByte s) a) ∧
      (∀ a, bufByte u a = Spec.unwalk (Spec.cursor (keyByte s) s.klen s.blen) s.blen (bufByte t) a) ∧
      ∀ a, bufByte u a = bufByte s a) ∧
    (∃ t u, exec .permi s = .next t ∧ exec .permf t = .next u ∧ ∀ a, bufByte u a = bufByte s a)

/-- R155: PERMF rearranges the buffer's positions by one bijection that depends on the key bytes and N only, so the
bytes are the same multiset, and PERMI undoes it. -/
def Obligations.PermfRearrangesByKeyAndLengthOnly : Prop :=
  ∀ s : State, 1 ≤ s.klen → lengthsFit s = true →
    ∃ f : Nat → Nat, (∀ a, a < s.blen → f a < s.blen) ∧
      (∀ a b, a < s.blen → b < s.blen → f a = f b → a = b) ∧
      ∀ s2 : State, s2.klen = s.klen → s2.blen = s.blen → lengthsFit s2 = true →
        (∀ i, i < s.klen → keyByte s2 i = keyByte s i) →
        ∃ t u, exec .permf s2 = .next t ∧ (∀ a, a < s.blen → bufByte t a = bufByte s2 (f a)) ∧
          ((List.range s.blen).map (bufByte t)).Perm ((List.range s.blen).map (bufByte s2)) ∧
          exec .permi t = .next u ∧ ∀ a, bufByte u a = bufByte s2 a

/-- R35, R143: PERMI observes nothing of a forward run but BUF: it gives the same buffer whatever the working registers
hold. -/
def Obligations.PermiIgnoresForwardCursors : Prop :=
  ∀ (s : State) (vt vpkc vpbc vpprev vq vm vi vsum : Nat) (vb vkb : Byte) (t u : State),
    exec .permi s = .next t →
    exec .permi { s with
      t := vt, pkc := vpkc, pbc := vpbc, pprev := vpprev, q := vq, m := vm, i := vi, sum := vsum, b := vb, kb := vkb }
      = .next u →
    u.buf = t.buf

/-! ### Commands: acceptance and rejection -/

/-- R170 step 5: a legal command with lengths in range is accepted; its frame. -/
def Obligations.LegalCommandsAreAccepted : Prop :=
  ∀ s : State, s.busy = false → 1 ≤ s.klen → lengthsFit s = true →
    exec .enc s = .next { s with
      done := false, err := false, errcode := .noError
      dir := .enc, busy := true, sRounds := 0#8, phase := .kdf, idleSeen := false } ∧
    exec .dec s = .next { s with
      done := false, err := false, errcode := .noError
      dir := .dec, busy := true, sRounds := 0#8, phase := .kdf, idleSeen := false }

/-- R201: with KLEN = 0 both commands are rejected with E_KEY_EMPTY, for every N and whatever KEY holds. -/
def Obligations.EmptyKeyIsRejected : Prop :=
  ∀ s : State, s.busy = false → s.klen = 0 → ∀ i : Instr, i = .enc ∨ i = .dec →
    exec i s = .next { s with done := false, err := true, errcode := .keyEmpty }

/-- R203: a length above its capacity is rejected with E_LENGTH; with unbounded capacities that cannot occur. -/
def Obligations.LengthsAboveCapacityAreRejected : Prop :=
  (∀ s : State, s.busy = false → 1 ≤ s.klen →
    s.params.kmax.admits s.klen = false ∨ s.params.nmax.admits s.blen = false → ∀ i : Instr, i = .enc ∨ i = .dec →
    exec i s = .next { s with done := false, err := true, errcode := .length }) ∧
  (∀ s : State, s.params.kmax = none → s.params.nmax = none →
    s.params.kmax.admits s.klen = true ∧ s.params.nmax.admits s.blen = true)

/-- R170, R205: what a host write of any word to CMD does while BUSY = 0, cause by cause in the order of the checks;
while BUSY = 1 it is refused (U2). -/
def Obligations.CommandWriteIsJudgedInOrder : Prop :=
  ∀ (s : State) (w : Byte) (rest : List Turn), s.schedule = .host (.wr 0 w.toNat) :: rest →
    (s.busy = true → step s = .refused .commandWhileBusy) ∧
    (s.busy = false → s.idleSeen = true →
      (w ≠ 0x01#8 ∧ w ≠ 0x02#8 →
        step s = .next { s with schedule := rest, done := false, err := true, errcode := .illegalCmd }) ∧
      (w = 0x01#8 ∨ w = 0x02#8 → s.klen = 0 →
        step s = .next { s with schedule := rest, done := false, err := true, errcode := .keyEmpty }) ∧
      (w = 0x01#8 ∨ w = 0x02#8 → 1 ≤ s.klen → lengthsFit s = false →
        step s = .next { s with schedule := rest, done := false, err := true, errcode := .length }) ∧
      (w = 0x01#8 ∨ w = 0x02#8 → 1 ≤ s.klen → lengthsFit s = true →
        step s = .next { s with
          schedule := rest, done := false, err := false, errcode := .noError
          dir := (if w = 0x01#8 then .enc else .dec), busy := true, sRounds := 0#8, phase := .kdf, idleSeen := false }))

/-- R206: a rejection is precise. If a CMD write leaves ERR set, it has changed ERR, ERRCODE and DONE only, with DONE
and BUSY 0 and a cause recorded. -/
def Obligations.RejectionIsPrecise : Prop :=
  ∀ (s t : State) (v : Nat) (rest : List Turn), s.schedule = .host (.wr 0 v) :: rest → step s = .next t → t.err = true →
    t = { s with schedule := rest, done := false, err := true, errcode := t.errcode } ∧
    t.errcode ≠ .noError ∧ t.done = false ∧ t.busy = false

/-! ### The sequencer -/

/-- R174, R176: the engine's rows of the transition table. Each unit operation runs to its end, then the phase changes
and the round value or the event is written. -/
def Obligations.SequencerRunsTheTable : Prop :=
  ∀ s : State, Invariant s →
    (s.phase = .kdf → s.dir = .enc → ∃ t, exec .rcd s = .next t ∧
      engineTurn s = .next { t with phase := .sub, r := 0#8 }) ∧
    (s.phase = .kdf → s.dir = .dec → ∃ t, exec .rcd s = .next t ∧
      engineTurn s = .next { t with phase := .prm, r := t.rc - 1#8 }) ∧
    (s.phase = .sub → s.dir = .enc → ∃ t, exec .subf s = .next t ∧ engineTurn s = .next { t with phase := .prm }) ∧
    (s.phase = .prm → s.dir = .enc → ∃ t, exec .permf s = .next t ∧
      engineTurn s = .next { t with
        phase := .rpt, prog := s.rc ++ s.r, progv := true, ptrace := s.ptrace ++ [(s.r, s.rc)] }) ∧
    (s.phase = .prm → s.dir = .dec → ∃ t, exec .permi s = .next t ∧ engineTurn s = .next { t with phase := .sub }) ∧
    (s.phase = .sub → s.dir = .dec → ∃ t, exec .subi s = .next t ∧
      engineTurn s = .next { t with
        phase := .rpt, prog := s.rc ++ s.r, progv := true, ptrace := s.ptrace ++ [(s.r, s.rc)] })

/-- R174, R177, R178: a write of any 8-bit value to ACK. With an event pending it starts the next round or, after the
last, completes the command, and then R and PROG are the last round's; with none pending it has no effect. -/
def Obligations.AcknowledgementEndsTheRound : Prop :=
  ∀ (s : State) (v : Nat), v < 256 →
    (s.progv = false → hostMove (.wr 7 v) s = .next s) ∧
    (Invariant s → s.phase = .rpt → s.sRounds.toNat < s.rc.toNat - 1 →
      hostMove (.wr 7 v) s = .next { s with
        progv := false, sRounds := s.sRounds + 1#8
        phase := (match s.dir with | .enc => .sub | .dec => .prm)
        r := (match s.dir with | .enc => s.sRounds + 1#8 | .dec => s.rc - 1#8 - (s.sRounds + 1#8)) }) ∧
    (Invariant s → s.phase = .rpt → s.sRounds.toNat = s.rc.toNat - 1 →
      hostMove (.wr 7 v) s = .next { s with progv := false, busy := false, done := true, phase := .idle } ∧
      s.r = (match s.dir with | .enc => s.rc - 1#8 | .dec => 0#8) ∧ s.prog = s.rc ++ s.r)

/-- R174, "No other transition exists": every change of PHASE is a row of the table, made by the turn that the row
names, or a reset. -/
def Obligations.PhaseChangesOnlyByTheTable : Prop :=
  ∀ s t : State, Invariant s → step s = .next t → t.phase ≠ s.phase →
    (s.phase = .idle ∧ t.phase = .kdf ∧ ∃ w rest, (w = 1 ∨ w = 2) ∧ s.schedule = .host (.wr 0 w) :: rest) ∨
    ((s.schedule = [] ∨ ∃ rest, s.schedule = .engine :: rest) ∧
      ((s.phase = .kdf ∧ s.dir = .enc ∧ t.phase = .sub) ∨ (s.phase = .kdf ∧ s.dir = .dec ∧ t.phase = .prm) ∨
       (s.phase = .sub ∧ s.dir = .enc ∧ t.phase = .prm) ∨ (s.phase = .prm ∧ s.dir = .enc ∧ t.phase = .rpt) ∨
       (s.phase = .prm ∧ s.dir = .dec ∧ t.phase = .sub) ∨ (s.phase = .sub ∧ s.dir = .dec ∧ t.phase = .rpt))) ∨
    (s.phase = .rpt ∧ (∃ v rest, s.schedule = .host (.wr 7 v) :: rest) ∧
      ((s.sRounds.toNat < s.rc.toNat - 1 ∧ s.dir = .enc ∧ t.phase = .sub) ∨
       (s.sRounds.toNat < s.rc.toNat - 1 ∧ s.dir = .dec ∧ t.phase = .prm) ∨
       (s.sRounds.toNat = s.rc.toNat - 1 ∧ t.phase = .idle))) ∨
    ((∃ rest, s.schedule = .reset :: rest) ∧ t.phase = .idle)

/-- R183: while a command runs, no turn but a reset changes its direction, key or lengths, or ends it before the last
event is acknowledged, and every engine's turn moves it on. -/
def Obligations.RunningCommandCannotBeCancelled : Prop :=
  ∀ s t : State, Invariant s → s.busy = true → (∀ rest, s.schedule ≠ .reset :: rest) → step s = .next t →
    t.dir = s.dir ∧ t.key = s.key ∧ t.klen = s.klen ∧ t.blen = s.blen ∧
    (t.busy = true ∨
      (s.phase = .rpt ∧ s.sRounds.toNat + 1 = s.rc.toNat ∧ ∃ v rest, s.schedule = .host (.wr 7 v) :: rest)) ∧
    (s.phase ≠ .rpt → (s.schedule = [] ∨ ∃ rest, s.schedule = .engine :: rest) → t.phase ≠ s.phase)

/-- R212: if the host never writes ACK after an event, the engine waits in RPT with BUSY = 1 and PROGV = 1 for ever,
and no flag reports it: any number of engine's turns and register reads leave STATUS and PHASE. -/
def Obligations.UnacknowledgedEventHangs : Prop :=
  ∀ (s : State) (turns : List Turn), Invariant s → s.phase = .rpt →
    (∀ a, a ∈ turns → a = .engine ∨ ∃ n, n ≤ 7 ∧ a = .host (.rd n)) →
    ∃ t, Host.Core.run Sys2Proof.core turns.length { s with schedule := turns } = .next t ∧
      t.phase = .rpt ∧ t.busy = true ∧ t.progv = true ∧ statusWord t = statusWord s

/-- R21, R22, R76, R175: the whole-machine frame of the operations. None writes KEY, a length, an event, or a byte of
BUF at or above N; the unit operations write no flag and no sequencer register but RC, and RCD no byte of BUF; the
commands write no byte and no value register. -/
def Obligations.OperationsWriteOnlyTheirOwnState : Prop :=
  ∀ (i : Instr) (s t : State), exec i s = .next t →
    (t.key = s.key ∧ t.klen = s.klen ∧ t.blen = s.blen ∧ t.params = s.params ∧ t.prog = s.prog ∧ t.progv = s.progv ∧
      t.ptrace = s.ptrace ∧ t.r = s.r ∧ t.schedule = s.schedule ∧ t.readLog = s.readLog ∧ t.epoch = s.epoch) ∧
    (∀ a, s.blen ≤ a → bufByte t a = bufByte s a) ∧
    (i.issuer = .sequencer → t.busy = s.busy ∧ t.done = s.done ∧ t.err = s.err ∧ t.errcode = s.errcode ∧
      t.dir = s.dir ∧ t.phase = s.phase ∧ t.sRounds = s.sRounds ∧ t.idleSeen = s.idleSeen ∧ (i ≠ .rcd → t.rc = s.rc)) ∧
    (i = .rcd → ∀ a, bufByte t a = bufByte s a) ∧
    (i.issuer = .host → (∀ a, bufByte t a = bufByte s a) ∧ t.rc = s.rc)

/-- R65, R184: what the host has read, what it has seen and the turns to come do not steer the engine: with any other
such records its turn has the same outcome, records aside. -/
def Obligations.HostRecordsDoNotSteerTheEngine : Prop :=
  ∀ (s : State) (turns : List Turn) (log : List HostRead) (seen : Bool),
    engineTurn { s with schedule := turns, readLog := log, idleSeen := seen } =
      Result.map (fun t => { t with schedule := turns, readLog := log, idleSeen := seen }) (engineTurn s)

/-! ### Whole commands -/

/-- R179, with R171, R172, R176: a command written in a ready state and run with every event acknowledged ends with
BUF[0..N-1] the command's function of the key and the old buffer, RC its RoundCount, R the last round value, DIR, DONE,
PTRACE extended by its events in order, PROG the last of them, KEY and the bytes at or above N unchanged. -/
def Obligations.WholeCommandComputesItsFunction : Prop :=
  ∀ (d : Dir) (s : State), Ready s →
    ∃ t, runCommand d (Spec.roundCount (keyByte s) s.klen) s = .next t ∧
      (∀ a, a < s.blen → bufByte t a = Spec.command d (keyByte s) s.klen s.blen (bufByte s) a) ∧
      (∀ a, s.blen ≤ a → bufByte t a = bufByte s a) ∧
      t.rc = BitVec.ofNat 8 (Spec.roundCount (keyByte s) s.klen) ∧
      t.r = (match d with | .enc => t.rc - 1#8 | .dec => 0#8) ∧
      t.dir = d ∧ t.done = true ∧ t.busy = false ∧ t.err = false ∧
      t.ptrace = s.ptrace ++ Spec.progressEvents d (Spec.roundCount (keyByte s) s.klen) ∧ t.prog = t.rc ++ t.r ∧
      t.key = s.key ∧ t.klen = s.klen ∧ t.blen = s.blen ∧ t.schedule = [] ∧ Ready t

/-- R180: the round-trip law. DEC after ENC, and ENC after DEC, with the same key and lengths, restore the buffer. -/
def Obligations.DecryptionUndoesEncryption : Prop :=
  ∀ (d : Dir) (s : State), Ready s →
    ∃ t u, runCommand d (Spec.roundCount (keyByte s) s.klen) s = .next t ∧
      runCommand (d.opposite) (Spec.roundCount (keyByte s) s.klen) t = .next u ∧
      ∀ a, bufByte u a = bufByte s a

/-- R182: with N = 0 an accepted command derives RC, runs RC rounds and issues RC events in the proper order, and BUF
is not written. -/
def Obligations.EmptyBufferCommandReportsItsRounds : Prop :=
  ∀ (d : Dir) (s : State), Ready s → s.blen = 0 →
    ∃ t, runCommand d (Spec.roundCount (keyByte s) s.klen) s = .next t ∧
      t.buf = s.buf ∧ t.rc = BitVec.ofNat 8 (Spec.roundCount (keyByte s) s.klen) ∧ t.done = true ∧
      t.ptrace = s.ptrace ++ Spec.progressEvents d (Spec.roundCount (keyByte s) s.klen)

/-- R186: two accepted commands with equal word, lengths, key bytes and buffer bytes give equal buffer, RC, R and
events, whatever else the states hold. -/
def Obligations.CommandsAreDeterministic : Prop :=
  ∀ (d : Dir) (s1 s2 : State), Ready s1 → Ready s2 → s1.klen = s2.klen → s1.blen = s2.blen →
    (∀ i, i < s1.klen → keyByte s1 i = keyByte s2 i) → (∀ a, a < s1.blen → bufByte s1 a = bufByte s2 a) →
    ∃ (t1 t2 : State) (events : List (Byte × Byte)),
      runCommand d (Spec.roundCount (keyByte s1) s1.klen) s1 = .next t1 ∧
      runCommand d (Spec.roundCount (keyByte s1) s1.klen) s2 = .next t2 ∧ t1.done = true ∧ t2.done = true ∧
      (∀ a, a < s1.blen → bufByte t1 a = bufByte t2 a) ∧ t1.rc = t2.rc ∧ t1.r = t2.r ∧
      t1.ptrace = s1.ptrace ++ events ∧ t2.ptrace = s2.ptrace ++ events

/-- R181: for a fixed key and N there are a permutation of the positions and byte bijections such that each ciphertext
byte is a function of exactly one plaintext byte; changing one plaintext byte changes exactly one ciphertext byte. -/
def Obligations.EachByteDependsOnOneByte : Prop :=
  ∀ s : State, Ready s →
    ∃ (f : Nat → Nat) (g : Nat → Byte → Byte),
      (∀ p, p < s.blen → f p < s.blen) ∧ (∀ p q, p < s.blen → q < s.blen → f p = f q → p = q) ∧
      (∀ p x y, p < s.blen → g p x = g p y → x = y) ∧ (∀ p y, p < s.blen → ∃ x, g p x = y) ∧
      (∀ s2 : State, Ready s2 → s2.klen = s.klen → s2.blen = s.blen → (∀ i, i < s.klen → keyByte s2 i = keyByte s i) →
        ∃ t2, runCommand .enc (Spec.roundCount (keyByte s) s.klen) s2 = .next t2 ∧
          ∀ p, p < s.blen → bufByte t2 (f p) = g p (bufByte s2 p)) ∧
      (∀ (s2 s3 : State) (p : Nat), Ready s2 → Ready s3 → s2.klen = s.klen → s3.klen = s.klen →
        s2.blen = s.blen → s3.blen = s.blen → (∀ i, i < s.klen → keyByte s2 i = keyByte s i) →
        (∀ i, i < s.klen → keyByte s3 i = keyByte s i) → p < s.blen → bufByte s2 p ≠ bufByte s3 p →
        (∀ q, q < s.blen → q ≠ p → bufByte s2 q = bufByte s3 q) →
        ∃ t2 t3, runCommand .enc (Spec.roundCount (keyByte s) s.klen) s2 = .next t2 ∧
          runCommand .enc (Spec.roundCount (keyByte s) s.klen) s3 = .next t3 ∧
          bufByte t2 (f p) ≠ bufByte t3 (f p) ∧ ∀ q, q < s.blen → q ≠ f p → bufByte t2 q = bufByte t3 q)

/-! ### The host port -/

/-- R235, R236, U1, U2, U6: an action of the host is carried out exactly where the spec lets the host make it, and
refused everywhere else. -/
def Obligations.HostActsExactlyWhereItMay : Prop :=
  ∀ (s : State) (a : HostMove),
    (hostMay s a = true → ∃ t, hostMove a s = .next t) ∧ (hostMay s a = false → ∃ e, hostMove a s = .refused e)

/-- R25: the fields of STATUS as the host reads them, bit by bit. -/
def Obligations.StatusShowsTheFlags : Prop :=
  ∀ s : State,
    (statusWord s).getLsbD 0 = s.busy ∧ (statusWord s).getLsbD 1 = s.done ∧ (statusWord s).getLsbD 2 = s.err ∧
    ((statusWord s).getLsbD 3 = true ↔ s.dir = .dec) ∧ (statusWord s).getLsbD 4 = s.progv ∧
    (statusWord s).extractLsb' 5 3 =
      (match s.errcode with | .noError => 0#3 | .keyEmpty => 1#3 | .illegalCmd => 2#3 | .length => 3#3)

/-- R23, R24, R28 to R31, R65: a host read of each register, in any state: the value returned, and no side effect on
the engine (the two fields that change are the model's own records, log entries 10 and 14). -/
def Obligations.RegisterReadsReturnTheRegisters : Prop :=
  ∀ (s : State) (n v : Nat),
    (n = 0 ∧ v = 0) ∨ (n = 1 ∧ v = (statusWord s).toNat) ∨ (n = 2 ∧ v = s.klen) ∨ (n = 3 ∧ v = s.blen) ∨
    (n = 4 ∧ v = s.rc.toNat) ∨ (n = 5 ∧ v = s.r.toNat) ∨ (n = 6 ∧ v = s.prog.toNat) ∨ (n = 7 ∧ v = 0) →
    hostMove (.rd n) s = .next { s with
      readLog := s.readLog ++ [⟨.reg n, v⟩]
      idleSeen := s.idleSeen || (decide (n = 1) && !s.busy) }

/-- R26, R27: KLEN and BLEN take every value of their width while the host owns the engine, and read back as
written. -/
def Obligations.LengthRegistersReadBack : Prop :=
  ∀ (s : State) (v : Nat), s.busy = false → s.idleSeen = true → s.params.fitsIndex v = true →
    hostMove (.wr 2 v) s = .next { s with klen := v } ∧ readRegister { s with klen := v } 2 = some v ∧
    hostMove (.wr 3 v) s = .next { s with blen := v } ∧ readRegister { s with blen := v } 3 = some v

/-- R60, R62: the host's one-byte accesses while it owns the memories: a write changes that byte and nothing else, a
read returns the byte and changes nothing (but the model's record of it, log entry 14). -/
def Obligations.HostMemoryAccesses : Prop :=
  ∀ (s : State) (a : Nat) (v : Byte), s.busy = false → s.idleSeen = true →
    (s.params.kmax.hasOffset a = true →
      (∃ t, hostMove (.kw a v) s = .next t ∧ t = { s with key := t.key } ∧
        ∀ x, keyByte t x = if x = a then v else keyByte s x) ∧
      hostMove (.kr a) s = .next { s with readLog := s.readLog ++ [⟨.key a, (keyByte s a).toNat⟩] }) ∧
    (s.params.nmax.hasOffset a = true →
      (∃ t, hostMove (.bw a v) s = .next t ∧ t = { s with buf := t.buf } ∧
        ∀ x, bufByte t x = if x = a then v else bufByte s x) ∧
      hostMove (.br a) s = .next { s with readLog := s.readLog ++ [⟨.buf a, (bufByte s a).toNat⟩] })

/-! ### Any run of a command -/

/-- R179 with R31, R65, R177, R183 and R212: a command computes its function however it is run. After the CMD write of
a ready state come any engine's turns, register reads and ACK writes, of any value and needed or not, in any order and
number: every such run goes on, keeps key, lengths and the bytes at or above N, and issues the command's events in
order; and once BUSY is 0 the result is the one of WholeCommandComputesItsFunction. -/
def Obligations.EveryRunOfACommandComputesItsFunction : Prop :=
  ∀ (d : Dir) (s : State) (turns : List Turn), Ready s →
    (∀ a, a ∈ turns → a = .engine ∨ (∃ n, n ≤ 7 ∧ a = .host (.rd n)) ∨ ∃ v, v < 256 ∧ a = .host (.wr 7 v)) →
    ∃ t, Host.Core.run Sys2Proof.core (turns.length + 1)
        { s with schedule := .host (.wr 0 (commandWord d)) :: turns } = .next t ∧
      t.key = s.key ∧ t.klen = s.klen ∧ t.blen = s.blen ∧ t.dir = d ∧ t.err = false ∧
      (∀ a, s.blen ≤ a → bufByte t a = bufByte s a) ∧
      (∃ j, t.ptrace = s.ptrace ++ (Spec.progressEvents d (Spec.roundCount (keyByte s) s.klen)).take j) ∧
      (t.busy = false →
        t.done = true ∧
        (∀ a, a < s.blen → bufByte t a = Spec.command d (keyByte s) s.klen s.blen (bufByte s) a) ∧
        t.rc = BitVec.ofNat 8 (Spec.roundCount (keyByte s) s.klen) ∧
        t.r = (match d with | .enc => t.rc - 1#8 | .dec => 0#8) ∧
        t.ptrace = s.ptrace ++ Spec.progressEvents d (Spec.roundCount (keyByte s) s.klen) ∧ t.prog = t.rc ++ t.r)
end

