-- ==== Sys2Proof/Laws/Memory.lean ====
section
/-! SUPPORT. The laws of a memory: a read after a write, and the canonical form that every write keeps. -/

namespace Sys2Proof.Machine

theorem Memory.get?_set (m : Memory) (a : Nat) (v : Byte) (x : Nat) :
    (m.set a v).get? x = if x = a then some v else m.get? x := by
  induction m with
  | nil => simp [Memory.set, Memory.get?]
  | cons c m ih =>
    obtain ⟨y, u⟩ := c
    simp only [Memory.set]
    split
    · simp only [Memory.get?]
    · split
      · subst_vars
        simp only [Memory.get?]
        split <;> simp_all
      · simp only [Memory.get?, ih]
        split
        · rename_i h
          have : x ≠ a := by omega
          simp [this]
        · rfl

/-- A read after a write: the byte written at its own offset, the old byte everywhere else. -/
theorem Memory.read_set (draw : Nat → Byte) (m : Memory) (a : Nat) (v : Byte) (x : Nat) :
    (m.set a v).read draw x = if x = a then v else m.read draw x := by
  simp only [Memory.read, Memory.get?_set]
  by_cases h : x = a <;> simp [h]

theorem bufRead_set (s : State) (m : Memory) (a : Nat) (v : Byte) (x : Nat) :
    bufRead s (m.set a v) x = if x = a then v else bufRead s m x :=
  Memory.read_set _ m a v x

/-- The canonical form of a list with a head: every later offset is above the head's. -/
theorem Memory.wf_cons (c : Host.Cell) (m : Memory) :
    Memory.wf (c :: m) = true ↔ (∀ d ∈ m, c.1 < d.1) ∧ Memory.wf m = true := by
  induction m generalizing c with
  | nil => simp [Memory.wf]
  | cons d m ih =>
    simp only [Memory.wf, Bool.and_eq_true, decide_eq_true_eq, List.mem_cons, forall_eq_or_imp]
    constructor
    · rintro ⟨h, hw⟩
      have := (ih d).1 hw
      exact ⟨⟨h, fun e he => Nat.lt_trans h (this.1 e he)⟩, hw⟩
    · rintro ⟨⟨h, _⟩, hw⟩
      exact ⟨h, hw⟩

/-- Which cells a write leaves: the new one and old ones. -/
theorem Memory.mem_set {m : Memory} {a : Nat} {v : Byte} {c : Host.Cell} (h : c ∈ m.set a v) :
    c = (a, v) ∨ c ∈ m := by
  induction m with
  | nil => simpa [Memory.set] using h
  | cons d m ih =>
    obtain ⟨y, u⟩ := d
    simp only [Memory.set] at h
    split at h
    · simpa using h
    · split at h
      · rcases List.mem_cons.1 h with h | h
        · exact .inl h
        · exact .inr (List.mem_cons_of_mem _ h)
      · rcases List.mem_cons.1 h with h | h
        · exact .inr (h ▸ List.mem_cons_self)
        · exact (ih h).imp id (List.mem_cons_of_mem _)

/-- Every write keeps the canonical form. -/
theorem Memory.set_wf {m : Memory} (h : m.wf = true) (a : Nat) (v : Byte) : (m.set a v).wf = true := by
  induction m with
  | nil => rfl
  | cons d m ih =>
    obtain ⟨y, u⟩ := d
    have hc := (Memory.wf_cons _ _).1 h
    simp only [Memory.set]
    split
    · rename_i hlt
      exact (Memory.wf_cons _ _).2 ⟨by
        rintro e he
        rcases List.mem_cons.1 he with rfl | he
        · exact hlt
        · exact Nat.lt_trans hlt (hc.1 e he), h⟩
    · split
      · rename_i heq
        exact (Memory.wf_cons _ _).2 ⟨by intro e he; simpa [heq] using hc.1 e he, hc.2⟩
      · rename_i h1 h2
        refine (Memory.wf_cons _ _).2 ⟨fun e he => ?_, ih hc.2⟩
        rcases Memory.mem_set he with rfl | he
        · show y < a
          omega
        · exact hc.1 e he

/-- A write at an offset below the capacity lists no offset outside it. -/
theorem Memory.set_inside {m : Memory} {c : Bound} (h : ∀ d ∈ m, c.hasOffset d.1 = true) {a : Nat}
    (ha : c.hasOffset a = true) (v : Byte) : ∀ d ∈ m.set a v, c.hasOffset d.1 = true := fun d hd => by
  rcases Memory.mem_set hd with rfl | hd
  · exact ha
  · exact h d hd

/-- Below a length that fits the capacity, every offset exists. -/
theorem Bound.hasOffset_of_admits {c : Bound} {n a : Nat} (h : c.admits n = true) (ha : a < n) :
    c.hasOffset a = true := by
  cases c with
  | none => rfl
  | some k =>
    simp only [Bound.admits, Bound.hasOffset, decide_eq_true_eq] at *
    omega

theorem reset_key_wf : State.reset.key.wf = true := rfl

theorem reset_buf_wf : State.reset.buf.wf = true := rfl

end Sys2Proof.Machine
end

