-- ==== Sys2Proof/Laws/State.lean ====
section
/-! SUPPORT. One lemma per field for each named update of the state, so that no later proof unfolds a record update. -/

namespace Sys2Proof.Machine

/-! ### clearSticky -/

@[simp] theorem clearSticky_params (s : State) : (clearSticky s).params = s.params := rfl
@[simp] theorem clearSticky_key (s : State) : (clearSticky s).key = s.key := rfl
@[simp] theorem clearSticky_buf (s : State) : (clearSticky s).buf = s.buf := rfl
@[simp] theorem clearSticky_klen (s : State) : (clearSticky s).klen = s.klen := rfl
@[simp] theorem clearSticky_blen (s : State) : (clearSticky s).blen = s.blen := rfl
@[simp] theorem clearSticky_busy (s : State) : (clearSticky s).busy = s.busy := rfl
@[simp] theorem clearSticky_done (s : State) : (clearSticky s).done = false := rfl
@[simp] theorem clearSticky_err (s : State) : (clearSticky s).err = false := rfl
@[simp] theorem clearSticky_dir (s : State) : (clearSticky s).dir = s.dir := rfl
@[simp] theorem clearSticky_progv (s : State) : (clearSticky s).progv = s.progv := rfl
@[simp] theorem clearSticky_errcode (s : State) : (clearSticky s).errcode = .noError := rfl
@[simp] theorem clearSticky_rc (s : State) : (clearSticky s).rc = s.rc := rfl
@[simp] theorem clearSticky_r (s : State) : (clearSticky s).r = s.r := rfl
@[simp] theorem clearSticky_prog (s : State) : (clearSticky s).prog = s.prog := rfl
@[simp] theorem clearSticky_phase (s : State) : (clearSticky s).phase = s.phase := rfl
@[simp] theorem clearSticky_sRounds (s : State) : (clearSticky s).sRounds = s.sRounds := rfl
@[simp] theorem clearSticky_acc (s : State) : (clearSticky s).acc = s.acc := rfl
@[simp] theorem clearSticky_b (s : State) : (clearSticky s).b = s.b := rfl
@[simp] theorem clearSticky_kb (s : State) : (clearSticky s).kb = s.kb := rfl
@[simp] theorem clearSticky_p (s : State) : (clearSticky s).p = s.p := rfl
@[simp] theorem clearSticky_skc (s : State) : (clearSticky s).skc = s.skc := rfl
@[simp] theorem clearSticky_t (s : State) : (clearSticky s).t = s.t := rfl
@[simp] theorem clearSticky_pkc (s : State) : (clearSticky s).pkc = s.pkc := rfl
@[simp] theorem clearSticky_pbc (s : State) : (clearSticky s).pbc = s.pbc := rfl
@[simp] theorem clearSticky_pprev (s : State) : (clearSticky s).pprev = s.pprev := rfl
@[simp] theorem clearSticky_q (s : State) : (clearSticky s).q = s.q := rfl
@[simp] theorem clearSticky_m (s : State) : (clearSticky s).m = s.m := rfl
@[simp] theorem clearSticky_i (s : State) : (clearSticky s).i = s.i := rfl
@[simp] theorem clearSticky_sum (s : State) : (clearSticky s).sum = s.sum := rfl
@[simp] theorem clearSticky_ptrace (s : State) : (clearSticky s).ptrace = s.ptrace := rfl
@[simp] theorem clearSticky_schedule (s : State) : (clearSticky s).schedule = s.schedule := rfl
@[simp] theorem clearSticky_readLog (s : State) : (clearSticky s).readLog = s.readLog := rfl
@[simp] theorem clearSticky_epoch (s : State) : (clearSticky s).epoch = s.epoch := rfl
@[simp] theorem clearSticky_idleSeen (s : State) : (clearSticky s).idleSeen = s.idleSeen := rfl

/-! ### raiseError -/

@[simp] theorem raiseError_params (e : ErrCode) (s : State) : (raiseError e s).params = s.params := rfl
@[simp] theorem raiseError_key (e : ErrCode) (s : State) : (raiseError e s).key = s.key := rfl
@[simp] theorem raiseError_buf (e : ErrCode) (s : State) : (raiseError e s).buf = s.buf := rfl
@[simp] theorem raiseError_klen (e : ErrCode) (s : State) : (raiseError e s).klen = s.klen := rfl
@[simp] theorem raiseError_blen (e : ErrCode) (s : State) : (raiseError e s).blen = s.blen := rfl
@[simp] theorem raiseError_busy (e : ErrCode) (s : State) : (raiseError e s).busy = s.busy := rfl
@[simp] theorem raiseError_done (e : ErrCode) (s : State) : (raiseError e s).done = s.done := rfl
@[simp] theorem raiseError_err (e : ErrCode) (s : State) : (raiseError e s).err = true := rfl
@[simp] theorem raiseError_dir (e : ErrCode) (s : State) : (raiseError e s).dir = s.dir := rfl
@[simp] theorem raiseError_progv (e : ErrCode) (s : State) : (raiseError e s).progv = s.progv := rfl
@[simp] theorem raiseError_errcode (e : ErrCode) (s : State) : (raiseError e s).errcode = e := rfl
@[simp] theorem raiseError_rc (e : ErrCode) (s : State) : (raiseError e s).rc = s.rc := rfl
@[simp] theorem raiseError_r (e : ErrCode) (s : State) : (raiseError e s).r = s.r := rfl
@[simp] theorem raiseError_prog (e : ErrCode) (s : State) : (raiseError e s).prog = s.prog := rfl
@[simp] theorem raiseError_phase (e : ErrCode) (s : State) : (raiseError e s).phase = s.phase := rfl
@[simp] theorem raiseError_sRounds (e : ErrCode) (s : State) : (raiseError e s).sRounds = s.sRounds := rfl
@[simp] theorem raiseError_acc (e : ErrCode) (s : State) : (raiseError e s).acc = s.acc := rfl
@[simp] theorem raiseError_b (e : ErrCode) (s : State) : (raiseError e s).b = s.b := rfl
@[simp] theorem raiseError_kb (e : ErrCode) (s : State) : (raiseError e s).kb = s.kb := rfl
@[simp] theorem raiseError_p (e : ErrCode) (s : State) : (raiseError e s).p = s.p := rfl
@[simp] theorem raiseError_skc (e : ErrCode) (s : State) : (raiseError e s).skc = s.skc := rfl
@[simp] theorem raiseError_t (e : ErrCode) (s : State) : (raiseError e s).t = s.t := rfl
@[simp] theorem raiseError_pkc (e : ErrCode) (s : State) : (raiseError e s).pkc = s.pkc := rfl
@[simp] theorem raiseError_pbc (e : ErrCode) (s : State) : (raiseError e s).pbc = s.pbc := rfl
@[simp] theorem raiseError_pprev (e : ErrCode) (s : State) : (raiseError e s).pprev = s.pprev := rfl
@[simp] theorem raiseError_q (e : ErrCode) (s : State) : (raiseError e s).q = s.q := rfl
@[simp] theorem raiseError_m (e : ErrCode) (s : State) : (raiseError e s).m = s.m := rfl
@[simp] theorem raiseError_i (e : ErrCode) (s : State) : (raiseError e s).i = s.i := rfl
@[simp] theorem raiseError_sum (e : ErrCode) (s : State) : (raiseError e s).sum = s.sum := rfl
@[simp] theorem raiseError_ptrace (e : ErrCode) (s : State) : (raiseError e s).ptrace = s.ptrace := rfl
@[simp] theorem raiseError_schedule (e : ErrCode) (s : State) : (raiseError e s).schedule = s.schedule := rfl
@[simp] theorem raiseError_readLog (e : ErrCode) (s : State) : (raiseError e s).readLog = s.readLog := rfl
@[simp] theorem raiseError_epoch (e : ErrCode) (s : State) : (raiseError e s).epoch = s.epoch := rfl
@[simp] theorem raiseError_idleSeen (e : ErrCode) (s : State) : (raiseError e s).idleSeen = s.idleSeen := rfl

/-! ### accept -/

@[simp] theorem accept_params (d : Dir) (s : State) : (accept d s).params = s.params := rfl
@[simp] theorem accept_key (d : Dir) (s : State) : (accept d s).key = s.key := rfl
@[simp] theorem accept_buf (d : Dir) (s : State) : (accept d s).buf = s.buf := rfl
@[simp] theorem accept_klen (d : Dir) (s : State) : (accept d s).klen = s.klen := rfl
@[simp] theorem accept_blen (d : Dir) (s : State) : (accept d s).blen = s.blen := rfl
@[simp] theorem accept_busy (d : Dir) (s : State) : (accept d s).busy = true := rfl
@[simp] theorem accept_done (d : Dir) (s : State) : (accept d s).done = s.done := rfl
@[simp] theorem accept_err (d : Dir) (s : State) : (accept d s).err = s.err := rfl
@[simp] theorem accept_dir (d : Dir) (s : State) : (accept d s).dir = d := rfl
@[simp] theorem accept_progv (d : Dir) (s : State) : (accept d s).progv = s.progv := rfl
@[simp] theorem accept_errcode (d : Dir) (s : State) : (accept d s).errcode = s.errcode := rfl
@[simp] theorem accept_rc (d : Dir) (s : State) : (accept d s).rc = s.rc := rfl
@[simp] theorem accept_r (d : Dir) (s : State) : (accept d s).r = s.r := rfl
@[simp] theorem accept_prog (d : Dir) (s : State) : (accept d s).prog = s.prog := rfl
@[simp] theorem accept_phase (d : Dir) (s : State) : (accept d s).phase = .kdf := rfl
@[simp] theorem accept_sRounds (d : Dir) (s : State) : (accept d s).sRounds = 0#8 := rfl
@[simp] theorem accept_acc (d : Dir) (s : State) : (accept d s).acc = s.acc := rfl
@[simp] theorem accept_b (d : Dir) (s : State) : (accept d s).b = s.b := rfl
@[simp] theorem accept_kb (d : Dir) (s : State) : (accept d s).kb = s.kb := rfl
@[simp] theorem accept_p (d : Dir) (s : State) : (accept d s).p = s.p := rfl
@[simp] theorem accept_skc (d : Dir) (s : State) : (accept d s).skc = s.skc := rfl
@[simp] theorem accept_t (d : Dir) (s : State) : (accept d s).t = s.t := rfl
@[simp] theorem accept_pkc (d : Dir) (s : State) : (accept d s).pkc = s.pkc := rfl
@[simp] theorem accept_pbc (d : Dir) (s : State) : (accept d s).pbc = s.pbc := rfl
@[simp] theorem accept_pprev (d : Dir) (s : State) : (accept d s).pprev = s.pprev := rfl
@[simp] theorem accept_q (d : Dir) (s : State) : (accept d s).q = s.q := rfl
@[simp] theorem accept_m (d : Dir) (s : State) : (accept d s).m = s.m := rfl
@[simp] theorem accept_i (d : Dir) (s : State) : (accept d s).i = s.i := rfl
@[simp] theorem accept_sum (d : Dir) (s : State) : (accept d s).sum = s.sum := rfl
@[simp] theorem accept_ptrace (d : Dir) (s : State) : (accept d s).ptrace = s.ptrace := rfl
@[simp] theorem accept_schedule (d : Dir) (s : State) : (accept d s).schedule = s.schedule := rfl
@[simp] theorem accept_readLog (d : Dir) (s : State) : (accept d s).readLog = s.readLog := rfl
@[simp] theorem accept_epoch (d : Dir) (s : State) : (accept d s).epoch = s.epoch := rfl
@[simp] theorem accept_idleSeen (d : Dir) (s : State) : (accept d s).idleSeen = false := rfl

/-! ### startRound -/

@[simp] theorem startRound_params (s : State) : (startRound s).params = s.params := rfl
@[simp] theorem startRound_key (s : State) : (startRound s).key = s.key := rfl
@[simp] theorem startRound_buf (s : State) : (startRound s).buf = s.buf := rfl
@[simp] theorem startRound_klen (s : State) : (startRound s).klen = s.klen := rfl
@[simp] theorem startRound_blen (s : State) : (startRound s).blen = s.blen := rfl
@[simp] theorem startRound_busy (s : State) : (startRound s).busy = s.busy := rfl
@[simp] theorem startRound_done (s : State) : (startRound s).done = s.done := rfl
@[simp] theorem startRound_err (s : State) : (startRound s).err = s.err := rfl
@[simp] theorem startRound_dir (s : State) : (startRound s).dir = s.dir := rfl
@[simp] theorem startRound_progv (s : State) : (startRound s).progv = s.progv := rfl
@[simp] theorem startRound_errcode (s : State) : (startRound s).errcode = s.errcode := rfl
@[simp] theorem startRound_rc (s : State) : (startRound s).rc = s.rc := rfl
@[simp] theorem startRound_r (s : State) : (startRound s).r = roundValue s.dir s.rc s.sRounds := rfl
@[simp] theorem startRound_prog (s : State) : (startRound s).prog = s.prog := rfl
@[simp] theorem startRound_phase (s : State) : (startRound s).phase = firstPhase s.dir := rfl
@[simp] theorem startRound_sRounds (s : State) : (startRound s).sRounds = s.sRounds := rfl
@[simp] theorem startRound_acc (s : State) : (startRound s).acc = s.acc := rfl
@[simp] theorem startRound_b (s : State) : (startRound s).b = s.b := rfl
@[simp] theorem startRound_kb (s : State) : (startRound s).kb = s.kb := rfl
@[simp] theorem startRound_p (s : State) : (startRound s).p = s.p := rfl
@[simp] theorem startRound_skc (s : State) : (startRound s).skc = s.skc := rfl
@[simp] theorem startRound_t (s : State) : (startRound s).t = s.t := rfl
@[simp] theorem startRound_pkc (s : State) : (startRound s).pkc = s.pkc := rfl
@[simp] theorem startRound_pbc (s : State) : (startRound s).pbc = s.pbc := rfl
@[simp] theorem startRound_pprev (s : State) : (startRound s).pprev = s.pprev := rfl
@[simp] theorem startRound_q (s : State) : (startRound s).q = s.q := rfl
@[simp] theorem startRound_m (s : State) : (startRound s).m = s.m := rfl
@[simp] theorem startRound_i (s : State) : (startRound s).i = s.i := rfl
@[simp] theorem startRound_sum (s : State) : (startRound s).sum = s.sum := rfl
@[simp] theorem startRound_ptrace (s : State) : (startRound s).ptrace = s.ptrace := rfl
@[simp] theorem startRound_schedule (s : State) : (startRound s).schedule = s.schedule := rfl
@[simp] theorem startRound_readLog (s : State) : (startRound s).readLog = s.readLog := rfl
@[simp] theorem startRound_epoch (s : State) : (startRound s).epoch = s.epoch := rfl
@[simp] theorem startRound_idleSeen (s : State) : (startRound s).idleSeen = s.idleSeen := rfl

/-! ### emit -/

@[simp] theorem emit_params (s : State) : (emit s).params = s.params := rfl
@[simp] theorem emit_key (s : State) : (emit s).key = s.key := rfl
@[simp] theorem emit_buf (s : State) : (emit s).buf = s.buf := rfl
@[simp] theorem emit_klen (s : State) : (emit s).klen = s.klen := rfl
@[simp] theorem emit_blen (s : State) : (emit s).blen = s.blen := rfl
@[simp] theorem emit_busy (s : State) : (emit s).busy = s.busy := rfl
@[simp] theorem emit_done (s : State) : (emit s).done = s.done := rfl
@[simp] theorem emit_err (s : State) : (emit s).err = s.err := rfl
@[simp] theorem emit_dir (s : State) : (emit s).dir = s.dir := rfl
@[simp] theorem emit_progv (s : State) : (emit s).progv = true := rfl
@[simp] theorem emit_errcode (s : State) : (emit s).errcode = s.errcode := rfl
@[simp] theorem emit_rc (s : State) : (emit s).rc = s.rc := rfl
@[simp] theorem emit_r (s : State) : (emit s).r = s.r := rfl
@[simp] theorem emit_prog (s : State) : (emit s).prog = progWord s.r s.rc := rfl
@[simp] theorem emit_phase (s : State) : (emit s).phase = .rpt := rfl
@[simp] theorem emit_sRounds (s : State) : (emit s).sRounds = s.sRounds := rfl
@[simp] theorem emit_acc (s : State) : (emit s).acc = s.acc := rfl
@[simp] theorem emit_b (s : State) : (emit s).b = s.b := rfl
@[simp] theorem emit_kb (s : State) : (emit s).kb = s.kb := rfl
@[simp] theorem emit_p (s : State) : (emit s).p = s.p := rfl
@[simp] theorem emit_skc (s : State) : (emit s).skc = s.skc := rfl
@[simp] theorem emit_t (s : State) : (emit s).t = s.t := rfl
@[simp] theorem emit_pkc (s : State) : (emit s).pkc = s.pkc := rfl
@[simp] theorem emit_pbc (s : State) : (emit s).pbc = s.pbc := rfl
@[simp] theorem emit_pprev (s : State) : (emit s).pprev = s.pprev := rfl
@[simp] theorem emit_q (s : State) : (emit s).q = s.q := rfl
@[simp] theorem emit_m (s : State) : (emit s).m = s.m := rfl
@[simp] theorem emit_i (s : State) : (emit s).i = s.i := rfl
@[simp] theorem emit_sum (s : State) : (emit s).sum = s.sum := rfl
@[simp] theorem emit_ptrace (s : State) : (emit s).ptrace = s.ptrace ++ [(s.r, s.rc)] := rfl
@[simp] theorem emit_schedule (s : State) : (emit s).schedule = s.schedule := rfl
@[simp] theorem emit_readLog (s : State) : (emit s).readLog = s.readLog := rfl
@[simp] theorem emit_epoch (s : State) : (emit s).epoch = s.epoch := rfl
@[simp] theorem emit_idleSeen (s : State) : (emit s).idleSeen = s.idleSeen := rfl

/-! ### complete -/

@[simp] theorem complete_params (s : State) : (complete s).params = s.params := rfl
@[simp] theorem complete_key (s : State) : (complete s).key = s.key := rfl
@[simp] theorem complete_buf (s : State) : (complete s).buf = s.buf := rfl
@[simp] theorem complete_klen (s : State) : (complete s).klen = s.klen := rfl
@[simp] theorem complete_blen (s : State) : (complete s).blen = s.blen := rfl
@[simp] theorem complete_busy (s : State) : (complete s).busy = false := rfl
@[simp] theorem complete_done (s : State) : (complete s).done = true := rfl
@[simp] theorem complete_err (s : State) : (complete s).err = s.err := rfl
@[simp] theorem complete_dir (s : State) : (complete s).dir = s.dir := rfl
@[simp] theorem complete_progv (s : State) : (complete s).progv = s.progv := rfl
@[simp] theorem complete_errcode (s : State) : (complete s).errcode = s.errcode := rfl
@[simp] theorem complete_rc (s : State) : (complete s).rc = s.rc := rfl
@[simp] theorem complete_r (s : State) : (complete s).r = s.r := rfl
@[simp] theorem complete_prog (s : State) : (complete s).prog = s.prog := rfl
@[simp] theorem complete_phase (s : State) : (complete s).phase = .idle := rfl
@[simp] theorem complete_sRounds (s : State) : (complete s).sRounds = s.sRounds := rfl
@[simp] theorem complete_acc (s : State) : (complete s).acc = s.acc := rfl
@[simp] theorem complete_b (s : State) : (complete s).b = s.b := rfl
@[simp] theorem complete_kb (s : State) : (complete s).kb = s.kb := rfl
@[simp] theorem complete_p (s : State) : (complete s).p = s.p := rfl
@[simp] theorem complete_skc (s : State) : (complete s).skc = s.skc := rfl
@[simp] theorem complete_t (s : State) : (complete s).t = s.t := rfl
@[simp] theorem complete_pkc (s : State) : (complete s).pkc = s.pkc := rfl
@[simp] theorem complete_pbc (s : State) : (complete s).pbc = s.pbc := rfl
@[simp] theorem complete_pprev (s : State) : (complete s).pprev = s.pprev := rfl
@[simp] theorem complete_q (s : State) : (complete s).q = s.q := rfl
@[simp] theorem complete_m (s : State) : (complete s).m = s.m := rfl
@[simp] theorem complete_i (s : State) : (complete s).i = s.i := rfl
@[simp] theorem complete_sum (s : State) : (complete s).sum = s.sum := rfl
@[simp] theorem complete_ptrace (s : State) : (complete s).ptrace = s.ptrace := rfl
@[simp] theorem complete_schedule (s : State) : (complete s).schedule = s.schedule := rfl
@[simp] theorem complete_readLog (s : State) : (complete s).readLog = s.readLog := rfl
@[simp] theorem complete_epoch (s : State) : (complete s).epoch = s.epoch := rfl
@[simp] theorem complete_idleSeen (s : State) : (complete s).idleSeen = s.idleSeen := rfl

/-! ### logRead -/

@[simp] theorem logRead_params (a : Place) (v : Nat) (s : State) : (logRead a v s).params = s.params := rfl
@[simp] theorem logRead_key (a : Place) (v : Nat) (s : State) : (logRead a v s).key = s.key := rfl
@[simp] theorem logRead_buf (a : Place) (v : Nat) (s : State) : (logRead a v s).buf = s.buf := rfl
@[simp] theorem logRead_klen (a : Place) (v : Nat) (s : State) : (logRead a v s).klen = s.klen := rfl
@[simp] theorem logRead_blen (a : Place) (v : Nat) (s : State) : (logRead a v s).blen = s.blen := rfl
@[simp] theorem logRead_busy (a : Place) (v : Nat) (s : State) : (logRead a v s).busy = s.busy := rfl
@[simp] theorem logRead_done (a : Place) (v : Nat) (s : State) : (logRead a v s).done = s.done := rfl
@[simp] theorem logRead_err (a : Place) (v : Nat) (s : State) : (logRead a v s).err = s.err := rfl
@[simp] theorem logRead_dir (a : Place) (v : Nat) (s : State) : (logRead a v s).dir = s.dir := rfl
@[simp] theorem logRead_progv (a : Place) (v : Nat) (s : State) : (logRead a v s).progv = s.progv := rfl
@[simp] theorem logRead_errcode (a : Place) (v : Nat) (s : State) : (logRead a v s).errcode = s.errcode := rfl
@[simp] theorem logRead_rc (a : Place) (v : Nat) (s : State) : (logRead a v s).rc = s.rc := rfl
@[simp] theorem logRead_r (a : Place) (v : Nat) (s : State) : (logRead a v s).r = s.r := rfl
@[simp] theorem logRead_prog (a : Place) (v : Nat) (s : State) : (logRead a v s).prog = s.prog := rfl
@[simp] theorem logRead_phase (a : Place) (v : Nat) (s : State) : (logRead a v s).phase = s.phase := rfl
@[simp] theorem logRead_sRounds (a : Place) (v : Nat) (s : State) : (logRead a v s).sRounds = s.sRounds := rfl
@[simp] theorem logRead_acc (a : Place) (v : Nat) (s : State) : (logRead a v s).acc = s.acc := rfl
@[simp] theorem logRead_b (a : Place) (v : Nat) (s : State) : (logRead a v s).b = s.b := rfl
@[simp] theorem logRead_kb (a : Place) (v : Nat) (s : State) : (logRead a v s).kb = s.kb := rfl
@[simp] theorem logRead_p (a : Place) (v : Nat) (s : State) : (logRead a v s).p = s.p := rfl
@[simp] theorem logRead_skc (a : Place) (v : Nat) (s : State) : (logRead a v s).skc = s.skc := rfl
@[simp] theorem logRead_t (a : Place) (v : Nat) (s : State) : (logRead a v s).t = s.t := rfl
@[simp] theorem logRead_pkc (a : Place) (v : Nat) (s : State) : (logRead a v s).pkc = s.pkc := rfl
@[simp] theorem logRead_pbc (a : Place) (v : Nat) (s : State) : (logRead a v s).pbc = s.pbc := rfl
@[simp] theorem logRead_pprev (a : Place) (v : Nat) (s : State) : (logRead a v s).pprev = s.pprev := rfl
@[simp] theorem logRead_q (a : Place) (v : Nat) (s : State) : (logRead a v s).q = s.q := rfl
@[simp] theorem logRead_m (a : Place) (v : Nat) (s : State) : (logRead a v s).m = s.m := rfl
@[simp] theorem logRead_i (a : Place) (v : Nat) (s : State) : (logRead a v s).i = s.i := rfl
@[simp] theorem logRead_sum (a : Place) (v : Nat) (s : State) : (logRead a v s).sum = s.sum := rfl
@[simp] theorem logRead_ptrace (a : Place) (v : Nat) (s : State) : (logRead a v s).ptrace = s.ptrace := rfl
@[simp] theorem logRead_schedule (a : Place) (v : Nat) (s : State) : (logRead a v s).schedule = s.schedule := rfl
@[simp] theorem logRead_readLog (a : Place) (v : Nat) (s : State) :
    (logRead a v s).readLog = s.readLog ++ [⟨a, v⟩] := rfl
@[simp] theorem logRead_epoch (a : Place) (v : Nat) (s : State) : (logRead a v s).epoch = s.epoch := rfl
@[simp] theorem logRead_idleSeen (a : Place) (v : Nat) (s : State) : (logRead a v s).idleSeen = s.idleSeen := rfl

/-! ### PermRegs.into -/

@[simp] theorem PermRegs.into_params (x : PermRegs) (s : State) : (x.into s).params = s.params := rfl
@[simp] theorem PermRegs.into_key (x : PermRegs) (s : State) : (x.into s).key = s.key := rfl
@[simp] theorem PermRegs.into_buf (x : PermRegs) (s : State) : (x.into s).buf = x.buf := rfl
@[simp] theorem PermRegs.into_klen (x : PermRegs) (s : State) : (x.into s).klen = s.klen := rfl
@[simp] theorem PermRegs.into_blen (x : PermRegs) (s : State) : (x.into s).blen = s.blen := rfl
@[simp] theorem PermRegs.into_busy (x : PermRegs) (s : State) : (x.into s).busy = s.busy := rfl
@[simp] theorem PermRegs.into_done (x : PermRegs) (s : State) : (x.into s).done = s.done := rfl
@[simp] theorem PermRegs.into_err (x : PermRegs) (s : State) : (x.into s).err = s.err := rfl
@[simp] theorem PermRegs.into_dir (x : PermRegs) (s : State) : (x.into s).dir = s.dir := rfl
@[simp] theorem PermRegs.into_progv (x : PermRegs) (s : State) : (x.into s).progv = s.progv := rfl
@[simp] theorem PermRegs.into_errcode (x : PermRegs) (s : State) : (x.into s).errcode = s.errcode := rfl
@[simp] theorem PermRegs.into_rc (x : PermRegs) (s : State) : (x.into s).rc = s.rc := rfl
@[simp] theorem PermRegs.into_r (x : PermRegs) (s : State) : (x.into s).r = s.r := rfl
@[simp] theorem PermRegs.into_prog (x : PermRegs) (s : State) : (x.into s).prog = s.prog := rfl
@[simp] theorem PermRegs.into_phase (x : PermRegs) (s : State) : (x.into s).phase = s.phase := rfl
@[simp] theorem PermRegs.into_sRounds (x : PermRegs) (s : State) : (x.into s).sRounds = s.sRounds := rfl
@[simp] theorem PermRegs.into_acc (x : PermRegs) (s : State) : (x.into s).acc = s.acc := rfl
@[simp] theorem PermRegs.into_b (x : PermRegs) (s : State) : (x.into s).b = x.b := rfl
@[simp] theorem PermRegs.into_kb (x : PermRegs) (s : State) : (x.into s).kb = x.kb := rfl
@[simp] theorem PermRegs.into_p (x : PermRegs) (s : State) : (x.into s).p = s.p := rfl
@[simp] theorem PermRegs.into_skc (x : PermRegs) (s : State) : (x.into s).skc = s.skc := rfl
@[simp] theorem PermRegs.into_t (x : PermRegs) (s : State) : (x.into s).t = x.t := rfl
@[simp] theorem PermRegs.into_pkc (x : PermRegs) (s : State) : (x.into s).pkc = x.pkc := rfl
@[simp] theorem PermRegs.into_pbc (x : PermRegs) (s : State) : (x.into s).pbc = x.pbc := rfl
@[simp] theorem PermRegs.into_pprev (x : PermRegs) (s : State) : (x.into s).pprev = x.pprev := rfl
@[simp] theorem PermRegs.into_q (x : PermRegs) (s : State) : (x.into s).q = s.q := rfl
@[simp] theorem PermRegs.into_m (x : PermRegs) (s : State) : (x.into s).m = s.m := rfl
@[simp] theorem PermRegs.into_i (x : PermRegs) (s : State) : (x.into s).i = s.i := rfl
@[simp] theorem PermRegs.into_sum (x : PermRegs) (s : State) : (x.into s).sum = s.sum := rfl
@[simp] theorem PermRegs.into_ptrace (x : PermRegs) (s : State) : (x.into s).ptrace = s.ptrace := rfl
@[simp] theorem PermRegs.into_schedule (x : PermRegs) (s : State) : (x.into s).schedule = s.schedule := rfl
@[simp] theorem PermRegs.into_readLog (x : PermRegs) (s : State) : (x.into s).readLog = s.readLog := rfl
@[simp] theorem PermRegs.into_epoch (x : PermRegs) (s : State) : (x.into s).epoch = s.epoch := rfl
@[simp] theorem PermRegs.into_idleSeen (x : PermRegs) (s : State) : (x.into s).idleSeen = s.idleSeen := rfl

/-! ### resetInput -/

@[simp] theorem resetInput_params (s : State) : (resetInput s).params = s.params := rfl
@[simp] theorem resetInput_key (s : State) : (resetInput s).key = State.reset.key := rfl
@[simp] theorem resetInput_buf (s : State) : (resetInput s).buf = State.reset.buf := rfl
@[simp] theorem resetInput_klen (s : State) : (resetInput s).klen = State.reset.klen := rfl
@[simp] theorem resetInput_blen (s : State) : (resetInput s).blen = State.reset.blen := rfl
@[simp] theorem resetInput_busy (s : State) : (resetInput s).busy = State.reset.busy := rfl
@[simp] theorem resetInput_done (s : State) : (resetInput s).done = State.reset.done := rfl
@[simp] theorem resetInput_err (s : State) : (resetInput s).err = State.reset.err := rfl
@[simp] theorem resetInput_dir (s : State) : (resetInput s).dir = State.reset.dir := rfl
@[simp] theorem resetInput_progv (s : State) : (resetInput s).progv = State.reset.progv := rfl
@[simp] theorem resetInput_errcode (s : State) : (resetInput s).errcode = State.reset.errcode := rfl
@[simp] theorem resetInput_rc (s : State) : (resetInput s).rc = State.reset.rc := rfl
@[simp] theorem resetInput_r (s : State) : (resetInput s).r = State.reset.r := rfl
@[simp] theorem resetInput_prog (s : State) : (resetInput s).prog = State.reset.prog := rfl
@[simp] theorem resetInput_phase (s : State) : (resetInput s).phase = State.reset.phase := rfl
@[simp] theorem resetInput_sRounds (s : State) : (resetInput s).sRounds = State.reset.sRounds := rfl
@[simp] theorem resetInput_acc (s : State) : (resetInput s).acc = State.reset.acc := rfl
@[simp] theorem resetInput_b (s : State) : (resetInput s).b = State.reset.b := rfl
@[simp] theorem resetInput_kb (s : State) : (resetInput s).kb = State.reset.kb := rfl
@[simp] theorem resetInput_p (s : State) : (resetInput s).p = State.reset.p := rfl
@[simp] theorem resetInput_skc (s : State) : (resetInput s).skc = State.reset.skc := rfl
@[simp] theorem resetInput_t (s : State) : (resetInput s).t = State.reset.t := rfl
@[simp] theorem resetInput_pkc (s : State) : (resetInput s).pkc = State.reset.pkc := rfl
@[simp] theorem resetInput_pbc (s : State) : (resetInput s).pbc = State.reset.pbc := rfl
@[simp] theorem resetInput_pprev (s : State) : (resetInput s).pprev = State.reset.pprev := rfl
@[simp] theorem resetInput_q (s : State) : (resetInput s).q = State.reset.q := rfl
@[simp] theorem resetInput_m (s : State) : (resetInput s).m = State.reset.m := rfl
@[simp] theorem resetInput_i (s : State) : (resetInput s).i = State.reset.i := rfl
@[simp] theorem resetInput_sum (s : State) : (resetInput s).sum = State.reset.sum := rfl
@[simp] theorem resetInput_ptrace (s : State) : (resetInput s).ptrace = State.reset.ptrace := rfl
@[simp] theorem resetInput_schedule (s : State) : (resetInput s).schedule = s.schedule := rfl
@[simp] theorem resetInput_readLog (s : State) : (resetInput s).readLog = s.readLog := rfl
@[simp] theorem resetInput_epoch (s : State) : (resetInput s).epoch = s.epoch + 1 := rfl
@[simp] theorem resetInput_idleSeen (s : State) : (resetInput s).idleSeen = State.reset.idleSeen := rfl

/-! ### reconstruct -/

@[simp] theorem reconstruct_params (s : State) : (reconstruct s).params = s.params := rfl
@[simp] theorem reconstruct_key (s : State) : (reconstruct s).key = s.key := rfl
@[simp] theorem reconstruct_buf (s : State) : (reconstruct s).buf = s.buf := rfl
@[simp] theorem reconstruct_klen (s : State) : (reconstruct s).klen = s.klen := rfl
@[simp] theorem reconstruct_blen (s : State) : (reconstruct s).blen = s.blen := rfl
@[simp] theorem reconstruct_busy (s : State) : (reconstruct s).busy = s.busy := rfl
@[simp] theorem reconstruct_done (s : State) : (reconstruct s).done = s.done := rfl
@[simp] theorem reconstruct_err (s : State) : (reconstruct s).err = s.err := rfl
@[simp] theorem reconstruct_dir (s : State) : (reconstruct s).dir = s.dir := rfl
@[simp] theorem reconstruct_progv (s : State) : (reconstruct s).progv = s.progv := rfl
@[simp] theorem reconstruct_errcode (s : State) : (reconstruct s).errcode = s.errcode := rfl
@[simp] theorem reconstruct_rc (s : State) : (reconstruct s).rc = s.rc := rfl
@[simp] theorem reconstruct_r (s : State) : (reconstruct s).r = s.r := rfl
@[simp] theorem reconstruct_prog (s : State) : (reconstruct s).prog = s.prog := rfl
@[simp] theorem reconstruct_phase (s : State) : (reconstruct s).phase = s.phase := rfl
@[simp] theorem reconstruct_sRounds (s : State) : (reconstruct s).sRounds = s.sRounds := rfl
@[simp] theorem reconstruct_acc (s : State) : (reconstruct s).acc = s.acc := rfl
@[simp] theorem reconstruct_b (s : State) : (reconstruct s).b = s.b := rfl
@[simp] theorem reconstruct_kb (s : State) : (reconstruct s).kb = s.kb := rfl
@[simp] theorem reconstruct_p (s : State) : (reconstruct s).p = s.p := rfl
@[simp] theorem reconstruct_skc (s : State) : (reconstruct s).skc = s.skc := rfl
@[simp] theorem reconstruct_t (s : State) : (reconstruct s).t = 0 := rfl
@[simp] theorem reconstruct_pkc (s : State) : (reconstruct s).pkc = (s.blen + 1) % s.klen := rfl
@[simp] theorem reconstruct_pbc (s : State) :
    (reconstruct s).pbc = (sumAfter s ((s.blen + 1) / s.klen) ((s.blen + 1) % s.klen) s.klen).sum % s.blen := rfl
@[simp] theorem reconstruct_pprev (s : State) : (reconstruct s).pprev = s.pprev := rfl
@[simp] theorem reconstruct_q (s : State) : (reconstruct s).q = (s.blen + 1) / s.klen := rfl
@[simp] theorem reconstruct_m (s : State) : (reconstruct s).m = (s.blen + 1) % s.klen := rfl
@[simp] theorem reconstruct_i (s : State) :
    (reconstruct s).i = (sumAfter s ((s.blen + 1) / s.klen) ((s.blen + 1) % s.klen) s.klen).i := rfl
@[simp] theorem reconstruct_sum (s : State) :
    (reconstruct s).sum = (sumAfter s ((s.blen + 1) / s.klen) ((s.blen + 1) % s.klen) s.klen).sum := rfl
@[simp] theorem reconstruct_ptrace (s : State) : (reconstruct s).ptrace = s.ptrace := rfl
@[simp] theorem reconstruct_schedule (s : State) : (reconstruct s).schedule = s.schedule := rfl
@[simp] theorem reconstruct_readLog (s : State) : (reconstruct s).readLog = s.readLog := rfl
@[simp] theorem reconstruct_epoch (s : State) : (reconstruct s).epoch = s.epoch := rfl
@[simp] theorem reconstruct_idleSeen (s : State) : (reconstruct s).idleSeen = s.idleSeen := rfl

/-! ### substStage -/

@[simp] theorem substStage_params (f : Byte → Byte → Byte → Byte → Byte) (s : State) :
    (substStage f s).params = s.params := rfl
@[simp] theorem substStage_key (f : Byte → Byte → Byte → Byte → Byte) (s : State) :
    (substStage f s).key = s.key := rfl
@[simp] theorem substStage_buf (f : Byte → Byte → Byte → Byte → Byte) (s : State) :
    (substStage f s).buf = (substAfter f s s.blen).buf := rfl
@[simp] theorem substStage_klen (f : Byte → Byte → Byte → Byte → Byte) (s : State) :
    (substStage f s).klen = s.klen := rfl
@[simp] theorem substStage_blen (f : Byte → Byte → Byte → Byte → Byte) (s : State) :
    (substStage f s).blen = s.blen := rfl
@[simp] theorem substStage_busy (f : Byte → Byte → Byte → Byte → Byte) (s : State) :
    (substStage f s).busy = s.busy := rfl
@[simp] theorem substStage_done (f : Byte → Byte → Byte → Byte → Byte) (s : State) :
    (substStage f s).done = s.done := rfl
@[simp] theorem substStage_err (f : Byte → Byte → Byte → Byte → Byte) (s : State) :
    (substStage f s).err = s.err := rfl
@[simp] theorem substStage_dir (f : Byte → Byte → Byte → Byte → Byte) (s : State) :
    (substStage f s).dir = s.dir := rfl
@[simp] theorem substStage_progv (f : Byte → Byte → Byte → Byte → Byte) (s : State) :
    (substStage f s).progv = s.progv := rfl
@[simp] theorem substStage_errcode (f : Byte → Byte → Byte → Byte → Byte) (s : State) :
    (substStage f s).errcode = s.errcode := rfl
@[simp] theorem substStage_rc (f : Byte → Byte → Byte → Byte → Byte) (s : State) : (substStage f s).rc = s.rc := rfl
@[simp] theorem substStage_r (f : Byte → Byte → Byte → Byte → Byte) (s : State) : (substStage f s).r = s.r := rfl
@[simp] theorem substStage_prog (f : Byte → Byte → Byte → Byte → Byte) (s : State) :
    (substStage f s).prog = s.prog := rfl
@[simp] theorem substStage_phase (f : Byte → Byte → Byte → Byte → Byte) (s : State) :
    (substStage f s).phase = s.phase := rfl
@[simp] theorem substStage_sRounds (f : Byte → Byte → Byte → Byte → Byte) (s : State) :
    (substStage f s).sRounds = s.sRounds := rfl
@[simp] theorem substStage_acc (f : Byte → Byte → Byte → Byte → Byte) (s : State) :
    (substStage f s).acc = s.acc := rfl
@[simp] theorem substStage_b (f : Byte → Byte → Byte → Byte → Byte) (s : State) :
    (substStage f s).b = (substAfter f s s.blen).b := rfl
@[simp] theorem substStage_kb (f : Byte → Byte → Byte → Byte → Byte) (s : State) :
    (substStage f s).kb = (substAfter f s s.blen).kb := rfl
@[simp] theorem substStage_p (f : Byte → Byte → Byte → Byte → Byte) (s : State) :
    (substStage f s).p = (substAfter f s s.blen).p := rfl
@[simp] theorem substStage_skc (f : Byte → Byte → Byte → Byte → Byte) (s : State) :
    (substStage f s).skc = (substAfter f s s.blen).skc := rfl
@[simp] theorem substStage_t (f : Byte → Byte → Byte → Byte → Byte) (s : State) : (substStage f s).t = s.t := rfl
@[simp] theorem substStage_pkc (f : Byte → Byte → Byte → Byte → Byte) (s : State) :
    (substStage f s).pkc = s.pkc := rfl
@[simp] theorem substStage_pbc (f : Byte → Byte → Byte → Byte → Byte) (s : State) :
    (substStage f s).pbc = s.pbc := rfl
@[simp] theorem substStage_pprev (f : Byte → Byte → Byte → Byte → Byte) (s : State) :
    (substStage f s).pprev = s.pprev := rfl
@[simp] theorem substStage_q (f : Byte → Byte → Byte → Byte → Byte) (s : State) : (substStage f s).q = s.q := rfl
@[simp] theorem substStage_m (f : Byte → Byte → Byte → Byte → Byte) (s : State) : (substStage f s).m = s.m := rfl
@[simp] theorem substStage_i (f : Byte → Byte → Byte → Byte → Byte) (s : State) : (substStage f s).i = s.i := rfl
@[simp] theorem substStage_sum (f : Byte → Byte → Byte → Byte → Byte) (s : State) :
    (substStage f s).sum = s.sum := rfl
@[simp] theorem substStage_ptrace (f : Byte → Byte → Byte → Byte → Byte) (s : State) :
    (substStage f s).ptrace = s.ptrace := rfl
@[simp] theorem substStage_schedule (f : Byte → Byte → Byte → Byte → Byte) (s : State) :
    (substStage f s).schedule = s.schedule := rfl
@[simp] theorem substStage_readLog (f : Byte → Byte → Byte → Byte → Byte) (s : State) :
    (substStage f s).readLog = s.readLog := rfl
@[simp] theorem substStage_epoch (f : Byte → Byte → Byte → Byte → Byte) (s : State) :
    (substStage f s).epoch = s.epoch := rfl
@[simp] theorem substStage_idleSeen (f : Byte → Byte → Byte → Byte → Byte) (s : State) :
    (substStage f s).idleSeen = s.idleSeen := rfl

end Sys2Proof.Machine
end

