-- ==== Sys2Proof/Laws/Ops.lean ====
section
/-! SUPPORT. What each shared operation can do, said once: a guard's next state, a rejected or accepted command, the
acknowledgement, the engine's turn, a step. Later proofs cite these instead of unfolding. -/

namespace Sys2Proof.Machine

@[simp] theorem loopN_zero {α : Type} (f : α → α) (x : α) : loopN f 0 x = x := rfl

theorem loopN_succ {α : Type} (f : α → α) (n : Nat) (x : α) : loopN f (n + 1) x = f (loopN f n x) := rfl

/-- Going on from a next state reaches a next state only from one. -/
theorem Result.map_eq_next {f : State → State} {o : Result} {t : State} (h : Result.map f o = .next t) :
    ∃ u, o = .next u ∧ t = f u := by
  cases o <;> simp_all [Result.map]

/-- The guard of the stages, both ways. -/
theorem stage_empty (f : State → State) {s : State} (h : s.blen = 0) : stage f s = .next s := by
  simp [stage, h]

theorem stage_run (f : State → State) {s : State} (hn : 1 ≤ s.blen) (hk : 1 ≤ s.klen) (hl : lengthsFit s = true) :
    stage f s = .next (f s) := by
  have h1 : s.blen ≠ 0 := by omega
  have h2 : s.klen ≠ 0 := by omega
  simp [stage, h1, h2, hl]

/-- Everything a stage that answers next can have done. -/
theorem stage_next {f : State → State} {s t : State} (h : stage f s = .next t) :
    (s.blen = 0 ∧ t = s) ∨ (1 ≤ s.blen ∧ 1 ≤ s.klen ∧ lengthsFit s = true ∧ t = f s) := by
  unfold stage at h
  split at h
  · cases h; exact .inl ⟨‹_›, rfl⟩
  · split at h
    · cases h
    · split at h
      · cases h; exact .inr ⟨by omega, by omega, ‹_›, rfl⟩
      · cases h

/-- Every outcome of judging a legal command word (R170 steps 1 and 3 to 5). -/
theorem acceptCommand_cases (d : Dir) (s : State) :
    (s.klen = 0 ∧ acceptCommand d s = raiseError .keyEmpty (clearSticky s)) ∨
    (1 ≤ s.klen ∧ lengthsFit s = false ∧ acceptCommand d s = raiseError .length (clearSticky s)) ∨
    (1 ≤ s.klen ∧ lengthsFit s = true ∧ acceptCommand d s = accept d (clearSticky s)) := by
  unfold acceptCommand
  split
  · exact .inl ⟨‹_›, rfl⟩
  · split
    · exact .inr (.inr ⟨by omega, ‹_›, rfl⟩)
    · exact .inr (.inl ⟨by omega, by simp_all, rfl⟩)

/-- Every outcome of a write to ACK (R174, R177). -/
theorem acknowledge_cases (s : State) :
    (s.progv = false ∧ acknowledge s = s) ∨
    (s.progv = true ∧ s.sRounds.toNat + 1 < s.rc.toNat ∧
      acknowledge s = startRound { s with progv := false, sRounds := s.sRounds + 1#8 }) ∨
    (s.progv = true ∧ s.rc.toNat ≤ s.sRounds.toNat + 1 ∧ acknowledge s = complete { s with progv := false }) := by
  unfold acknowledge
  split
  · split
    · exact .inr (.inl ⟨‹_›, ‹_›, rfl⟩)
    · exact .inr (.inr ⟨‹_›, by omega, rfl⟩)
  · exact .inl ⟨by simp_all, rfl⟩

/-- The unit operation of each phase and direction (R32, R93, R174). -/
def unitOf : Phase → Dir → Option Instr
  | .kdf, _ => some .rcd
  | .sub, .enc => some .subf
  | .sub, .dec => some .subi
  | .prm, .enc => some .permf
  | .prm, .dec => some .permi
  | .idle, _ => none
  | .rpt, _ => none

/-- The engine's turn without the codes: nothing when idle or waiting, else the phase's unit operation. -/
theorem engineTurn_eq (s : State) :
    engineTurn s =
      match unitOf s.phase s.dir with
      | none => .next s
      | some i => Result.map unitDone (exec i s) := by
  unfold engineTurn
  cases hp : s.phase <;> cases hd : s.dir <;> rfl

/-- The rows of R174 that a finished unit operation takes. -/
theorem unitDone_kdf {s : State} (hp : s.phase = .kdf) : unitDone s = startRound s := by
  unfold unitDone
  split <;> simp_all

theorem unitDone_sub_enc {s : State} (hp : s.phase = .sub) (hd : s.dir = .enc) :
    unitDone s = { s with phase := .prm } := by
  unfold unitDone
  split <;> simp_all

theorem unitDone_prm_enc {s : State} (hp : s.phase = .prm) (hd : s.dir = .enc) : unitDone s = emit s := by
  unfold unitDone
  split <;> simp_all

theorem unitDone_prm_dec {s : State} (hp : s.phase = .prm) (hd : s.dir = .dec) :
    unitDone s = { s with phase := .sub } := by
  unfold unitDone
  split <;> simp_all

theorem unitDone_sub_dec {s : State} (hp : s.phase = .sub) (hd : s.dir = .dec) : unitDone s = emit s := by
  unfold unitDone
  split <;> simp_all

/-- What the host must own: the outcome of a guarded host action. -/
theorem whenFree_next {e : Refusal} {s t : State} {k : Result} (h : whenFree e s k = .next t) :
    s.busy = false ∧ s.idleSeen = true ∧ k = .next t := by
  unfold whenFree at h
  split at h
  · cases h
  · split at h
    · exact ⟨by simp_all, ‹_›, h⟩
    · cases h

theorem whenFree_free {e : Refusal} {s : State} {k : Result} (hb : s.busy = false) (hi : s.idleSeen = true) :
    whenFree e s k = k := by simp [whenFree, hb, hi]

theorem memoryMove_next {x : Bool} {s t u : State} (h : memoryMove x s t = .next u) :
    x = true ∧ s.busy = false ∧ s.idleSeen = true ∧ u = t := by
  unfold memoryMove at h
  split at h
  · obtain ⟨h1, h2, h3⟩ := whenFree_next h
    cases h3
    exact ⟨‹_›, h1, h2, rfl⟩
  · cases h

/-- Everything a CMD write that answers next can have done (R170). -/
theorem writeCommand_next {w : Byte} {s t : State} (h : writeCommand w s = .next t) :
    (t = raiseError .illegalCmd (clearSticky s)) ∨ (∃ d, s.busy = false ∧ t = acceptCommand d s) := by
  unfold writeCommand at h
  split at h
  · rename_i i hi
    have : i = .enc ∨ i = .dec := by
      unfold decodeCommand at hi
      split at hi
      · cases hi
      · split at hi
        · cases hi
        · split at hi
          · cases hi
            cases i <;> simp_all [Instr.wellFormed, Instr.issuer]
          · cases hi
    rcases this with rfl | rfl <;> simp only [exec, execEnc, execDec] at h <;> split at h <;> cases h
    · exact .inr ⟨.enc, by simp_all, rfl⟩
    · exact .inr ⟨.dec, by simp_all, rfl⟩
  · cases h; exact .inl rfl

/-- Everything a register write that answers next can have done (R23, R236). -/
theorem writeRegister_next {n v : Nat} {s t : State} (h : writeRegister n v s = .next t) :
    (n = 0 ∧ s.busy = false ∧ s.idleSeen = true ∧ writeCommand (BitVec.ofNat 8 v) s = .next t) ∨
    (n = 2 ∧ s.busy = false ∧ s.idleSeen = true ∧ s.params.fitsIndex v = true ∧ t = { s with klen := v }) ∨
    (n = 3 ∧ s.busy = false ∧ s.idleSeen = true ∧ s.params.fitsIndex v = true ∧ t = { s with blen := v }) ∨
    (n = 7 ∧ t = acknowledge s) := by
  unfold writeRegister at h
  split at h
  · cases h
  · split at h
    · cases h
    · rename_i hw
      split at h
      · cases h
      · rename_i hv
        split at h
        · obtain ⟨h1, h2, h3⟩ := whenFree_next h
          exact .inl ⟨‹_›, h1, h2, h3⟩
        · split at h
          · obtain ⟨h1, h2, h3⟩ := whenFree_next h
            cases h3
            exact .inr (.inl ⟨‹_›, h1, h2, by simp_all [valueFits], rfl⟩)
          · split at h
            · obtain ⟨h1, h2, h3⟩ := whenFree_next h
              cases h3
              exact .inr (.inr (.inl ⟨‹_›, h1, h2, by simp_all [valueFits], rfl⟩))
            · cases h
              refine .inr (.inr (.inr ⟨?_, rfl⟩))
              simp [registerWritable] at hw
              omega

/-- A register read that answers next: the value is recorded, and a STATUS read with BUSY = 0 is an observation. -/
theorem readRegisterMove_next {n : Nat} {s t : State} (h : readRegisterMove n s = .next t) :
    ∃ v, readRegister s n = some v ∧ t = noteStatusRead n (logRead (.reg n) v s) := by
  unfold readRegisterMove at h
  split at h
  · cases h; exact ⟨_, ‹_›, rfl⟩
  · cases h

theorem noteStatusRead_cases (n : Nat) (s : State) :
    (noteStatusRead n s = s) ∨ (n = 1 ∧ s.busy = false ∧ noteStatusRead n s = { s with idleSeen := true }) := by
  unfold noteStatusRead
  split
  · exact .inr ⟨(‹_ ∧ _›).1, (‹_ ∧ _›).2, rfl⟩
  · exact .inl rfl

/-- One step, by whose turn is at the head of the schedule. -/
theorem step_nil {s : State} (h : s.schedule = []) : step s = engineTurn s := by simp [step, h]

theorem step_cons {s : State} {a : Turn} {rest : List Turn} (h : s.schedule = a :: rest) :
    step s = takeTurn a { s with schedule := rest } := by simp [step, h]

/-- A run of one step more, when the first step answers next; for any machine. -/
theorem core_run_succ (M : Host.Core) {s t : M.State} (n : Nat) (h : M.step s = .next t) :
    M.run (n + 1) s = M.run n t := by
  simp [Host.Core.run, h]

/-- Two runs after each other; for any machine. -/
theorem core_run_add (M : Host.Core) {s t : M.State} (m n : Nat) (h : M.run m s = .next t) :
    M.run (m + n) s = M.run n t := by
  induction m generalizing s with
  | zero =>
    rw [Host.Core.run] at h
    cases h
    rw [Nat.zero_add]
  | succ m ih =>
    cases hs : M.step s with
    | next u =>
      rw [core_run_succ M m hs] at h
      rw [Nat.succ_add, core_run_succ M _ hs]
      exact ih h
    | fault e => simp [Host.Core.run, hs] at h
    | refused e => simp [Host.Core.run, hs] at h

theorem run_zero (s : State) : Host.Core.run Sys2Proof.core 0 s = .next s := rfl

theorem run_succ {s t : State} (n : Nat) (h : step s = .next t) :
    Host.Core.run Sys2Proof.core (n + 1) s = Host.Core.run Sys2Proof.core n t :=
  core_run_succ Sys2Proof.core n h

theorem run_add {s t : State} (m n : Nat) (h : Host.Core.run Sys2Proof.core m s = .next t) :
    Host.Core.run Sys2Proof.core (m + n) s = Host.Core.run Sys2Proof.core n t :=
  core_run_add Sys2Proof.core m n h

end Sys2Proof.Machine
end

