-- ==== Sys2Proof/Laws/PerInstr.lean ====
section
/-! SUPPORT. The per-instruction family `Encoded`: an operation is well formed for exactly one issuer, and its word of
the opcode table decodes to it (spec/30_encoding.md R93, R94). -/

namespace Sys2Proof.Laws.Encoded

/-- The operation's word decodes to it, and only its own issuer may issue it. -/
def Statement (i : Instr) : Prop :=
  decodeTableWord 8 (encode i).toNat = some i ∧
    (i.wellFormed .host = true ↔ i.wellFormed .sequencer = false)

theorem enc : Statement .enc := ⟨by decide, by decide⟩

theorem dec : Statement .dec := ⟨by decide, by decide⟩

theorem rcd : Statement .rcd := ⟨by decide, by decide⟩

theorem subf : Statement .subf := ⟨by decide, by decide⟩

theorem subi : Statement .subi := ⟨by decide, by decide⟩

theorem permf : Statement .permf := ⟨by decide, by decide⟩

theorem permi : Statement .permi := ⟨by decide, by decide⟩

end Sys2Proof.Laws.Encoded
end

