-- ==== Sys2Proof/Laws/Substitution.lean ====
section
/-! SUPPORT. What the substitution loop has done after any number of positions (spec/41_substitution.md R120, R126). -/

namespace Sys2Proof.Machine

/-- A cursor below its bound steps back by one modulo the bound (R12). -/
theorem cdec_mod {k n : Nat} (hk : 1 ≤ k) : cdec ((n + 1) % k) k = n % k := by
  have h1 := Nat.mod_lt n (show k > 0 by omega)
  have h : (n + 1) % k = (n % k + 1) % k := by rw [Nat.add_mod, Nat.add_mod (n % k)]; simp
  rw [h]
  unfold cdec
  by_cases hc : n % k + 1 = k
  · rw [hc, Nat.mod_self, if_pos rfl]; omega
  · rw [Nat.mod_eq_of_lt (by omega : n % k + 1 < k), if_neg (by omega)]; omega

/-- The loop's position. -/
theorem substAfter_p (f : Byte → Byte → Byte → Byte → Byte) (s : State) (n : Nat) : (substAfter f s n).p = n := by
  induction n with
  | zero => rfl
  | succ n ih => show (substAfter f s n).p + 1 = n + 1; rw [ih]

/-- The threaded cursor is its closed form `(N - p) mod K` (R126), up to the end of the buffer. -/
theorem substAfter_skc (f : Byte → Byte → Byte → Byte → Byte) {s : State} (hk : 1 ≤ s.klen) {n : Nat}
    (hn : n ≤ s.blen) : (substAfter f s n).skc = (s.blen - n) % s.klen := by
  induction n with
  | zero => rfl
  | succ n ih =>
    show cdec (substAfter f s n).skc s.klen = _
    rw [ih (by omega), show s.blen - n = (s.blen - (n + 1)) + 1 by omega, cdec_mod hk]

/-- Positions below `n` hold the transform of their own byte, the others their old byte (R129). -/
theorem substAfter_buf (f : Byte → Byte → Byte → Byte → Byte) {s : State} (hk : 1 ≤ s.klen) {n : Nat}
    (hn : n ≤ s.blen) (a : Nat) :
    bufRead s (substAfter f s n).buf a =
      if a < n then f (bufByte s a) (keyByte s ((s.blen - a) % s.klen)) s.r s.rc else bufByte s a := by
  induction n with
  | zero => rfl
  | succ n ih =>
    show bufRead s ((substAfter f s n).buf.set (substAfter f s n).p
      (f (bufRead s (substAfter f s n).buf (substAfter f s n).p) (keyByte s (substAfter f s n).skc) s.r s.rc)) a = _
    rw [bufRead_set, substAfter_p, substAfter_skc f hk (by omega)]
    by_cases h : a = n
    · subst h
      rw [if_pos rfl, if_pos (by omega), ih (by omega), if_neg (by omega)]
    · rw [if_neg h, ih (by omega)]
      by_cases h2 : a < n
      · rw [if_pos h2, if_pos (by omega)]
      · rw [if_neg h2, if_neg (by omega)]

/-- The key byte and the buffer byte of the last position done. -/
theorem substAfter_last (f : Byte → Byte → Byte → Byte → Byte) {s : State} (hk : 1 ≤ s.klen) {n : Nat}
    (hn : n + 1 ≤ s.blen) :
    (substAfter f s (n + 1)).kb = keyByte s ((s.blen - n) % s.klen) ∧
    (substAfter f s (n + 1)).b = bufRead s (substAfter f s (n + 1)).buf n := by
  have e : (substAfter f s (n + 1)).kb = keyByte s (substAfter f s n).skc := rfl
  have e2 : (substAfter f s (n + 1)).b =
    f (bufRead s (substAfter f s n).buf (substAfter f s n).p) (keyByte s (substAfter f s n).skc) s.r s.rc := rfl
  have e3 : (substAfter f s (n + 1)).buf = (substAfter f s n).buf.set (substAfter f s n).p
    (substAfter f s (n + 1)).b := rfl
  refine ⟨by rw [e, substAfter_skc f hk (by omega)], ?_⟩
  rw [e3, bufRead_set, substAfter_p, if_pos rfl]

theorem substAfter_wf (f : Byte → Byte → Byte → Byte → Byte) {s : State} (h : s.buf.wf = true) (n : Nat) :
    (substAfter f s n).buf.wf = true := by
  induction n with
  | zero => exact h
  | succ n ih => exact Memory.set_wf ih _ _

theorem substAfter_inside (f : Byte → Byte → Byte → Byte → Byte) {s : State}
    (h : ∀ c ∈ s.buf, s.params.nmax.hasOffset c.1 = true) (hl : s.params.nmax.admits s.blen = true) {n : Nat}
    (hn : n ≤ s.blen) : ∀ c ∈ (substAfter f s n).buf, s.params.nmax.hasOffset c.1 = true := by
  induction n with
  | zero => exact h
  | succ n ih =>
    refine Memory.set_inside (ih (by omega)) ?_ _
    show s.params.nmax.hasOffset (substAfter f s n).p = true
    rw [substAfter_p]
    exact Bound.hasOffset_of_admits hl (by omega)

end Sys2Proof.Machine
end

