-- ==== Sys2Proof/Laws/Permutation.lean ====
section
/-! SUPPORT. What the permutation loops have done after any number of steps, and the closed form of the end cursor
(spec/42_permutation.md R145 to R154). -/

namespace Sys2Proof.Spec

theorem sumTo_succ (g : Nat → Nat) (n : Nat) : sumTo g (n + 1) = sumTo g n + g n := rfl

theorem sumTo_congr {g h : Nat → Nat} {n : Nat} (e : ∀ i, i < n → g i = h i) : sumTo g n = sumTo h n := by
  induction n with
  | zero => rfl
  | succ n ih => rw [sumTo_succ, sumTo_succ, ih (fun i hi => e i (by omega)), e n (by omega)]

/-- Raising one term raises the sum by as much. -/
theorem sumTo_add_at {g h : Nat → Nat} {n j d : Nat} (hj : j < n) (he : ∀ i, i ≠ j → h i = g i)
    (hd : h j = g j + d) : sumTo h n = sumTo g n + d := by
  induction n with
  | zero => omega
  | succ n ih =>
    rw [sumTo_succ, sumTo_succ]
    by_cases hn : j = n
    · subst hn
      rw [sumTo_congr (g := h) (h := g) (fun i hi => he i (by omega)), hd]
      omega
    · rw [ih (by omega), he n (fun e => hn e.symm)]
      omega

theorem exchange_exchange {α : Type} (f : Nat → α) (i j : Nat) : exchange (exchange f i j) i j = f := by
  funext a
  unfold exchange
  by_cases h1 : a = i <;> by_cases h2 : a = j <;> simp_all

/-- Exchanging contents is reading through exchanged positions. -/
theorem exchange_comp {α : Type} (f : Nat → α) (i j a : Nat) : exchange f i j a = f (exchange id i j a) := by
  unfold exchange
  by_cases h1 : a = i <;> by_cases h2 : a = j <;> simp_all

theorem unwalk_walk {α : Type} (c : Nat → Nat) (t : Nat) (f : Nat → α) : unwalk c t (walk c t f) = f := by
  induction t with
  | zero => rfl
  | succ t ih => rw [walk, unwalk, exchange_exchange, ih]

theorem walk_unwalk {α : Type} (c : Nat → Nat) (t : Nat) (f : Nat → α) : walk c t (unwalk c t f) = f := by
  induction t generalizing f with
  | zero => rfl
  | succ t ih => rw [walk, unwalk, ih, exchange_exchange]

/-- The chain rearranges positions, whatever the contents (R155). -/
theorem walk_comp {α : Type} (c : Nat → Nat) (t : Nat) (f : Nat → α) (a : Nat) :
    walk c t f a = f (walk c t id a) := by
  induction t generalizing a with
  | zero => rfl
  | succ t ih =>
    show exchange (walk c t f) _ _ a = f (exchange (walk c t id) _ _ a)
    unfold exchange
    split
    · exact ih _
    · split
      · exact ih _
      · exact ih _

/-- The cursor advances by the jump (R142, R154). -/
theorem cursor_succ (key : Nat → Byte) (k n t : Nat) :
    cursor key k n (t + 1) = (cursor key k n t + (key ((t + 1) % k)).toNat % n) % n := by
  unfold cursor
  rw [sumTo_succ _ (t + 1), Nat.add_mod]

theorem cursor_lt {key : Nat → Byte} {k n : Nat} (hn : 1 ≤ n) (t : Nat) : cursor key k n t < n :=
  Nat.mod_lt _ (by omega)

/-- And back: subtracting the jump, with the bound added first, undoes the advance (R12, R148). -/
theorem cursor_back {key : Nat → Byte} {k n t : Nat} (hn : 1 ≤ n) :
    (cursor key k n (t + 1) + n - (key ((t + 1) % k)).toNat % n) % n = cursor key k n t := by
  rw [cursor_succ]
  have h1 : cursor key k n t < n := cursor_lt hn t
  have h2 := Nat.mod_lt (key ((t + 1) % k)).toNat (show n > 0 by omega)
  generalize cursor key k n t = x at *
  generalize (key ((t + 1) % k)).toNat % n = y at *
  by_cases h : x + y < n
  · rw [Nat.mod_eq_of_lt h, show x + y + n - y = x + n by omega, Nat.add_mod_right, Nat.mod_eq_of_lt h1]
  · have e : (x + y) % n = x + y - n := by
      rw [Nat.mod_eq_sub_mod (by omega : n ≤ x + y), Nat.mod_eq_of_lt (by omega)]
    rw [e, show x + y - n + n - y = x by omega, Nat.mod_eq_of_lt h1]

end Sys2Proof.Spec

namespace Sys2Proof.Machine

open Sys2Proof.Spec

theorem swap_buf (s : State) (i j : Nat) (x : PermRegs) (a : Nat) :
    bufRead s (swap s i j x).buf a = exchange (bufRead s x.buf) i j a := by
  show bufRead s ((x.buf.set i _).set j _) a = _
  rw [bufRead_set, bufRead_set]
  unfold exchange
  by_cases h1 : a = i <;> by_cases h2 : a = j <;> simp_all

/-- What `B` holds after a swap is the byte now at the second offset. -/
theorem swap_b (s : State) (i j : Nat) (x : PermRegs) : (swap s i j x).b = bufRead s (swap s i j x).buf j := by
  show bufRead s x.buf i = bufRead s ((x.buf.set i _).set j _) j
  rw [bufRead_set, if_pos rfl]

/-- The buffer cursor of a state's key and lengths. -/
def cursorOf (s : State) (t : Nat) : Nat := cursor (keyByte s) s.klen s.blen t

theorem permfAfter_succ (s : State) (n : Nat) : permfAfter s (n + 1) = permfBody s (permfAfter s n) := rfl

theorem permfAfter_t (s : State) (n : Nat) : (permfAfter s n).t = n := by
  induction n with
  | zero => rfl
  | succ n ih => show (permfAfter s n).t + 1 = n + 1; rw [ih]

theorem permfAfter_pkc (s : State) (n : Nat) : (permfAfter s n).pkc = n % s.klen := by
  induction n with
  | zero => exact (Nat.zero_mod _).symm
  | succ n ih =>
    show cinc (permfAfter s n).pkc s.klen = _
    rw [ih, cinc, Nat.mod_add_mod]

theorem permfAfter_kb (s : State) (n : Nat) : (permfAfter s n).kb = keyByte s (n % s.klen) := by
  cases n with
  | zero => show keyByte s 0 = _; rw [Nat.zero_mod]
  | succ n =>
    show keyByte s (permfAfter s (n + 1)).pkc = _
    rw [permfAfter_pkc]

theorem permfAfter_pbc (s : State) (n : Nat) : (permfAfter s n).pbc = cursorOf s n := by
  induction n with
  | zero =>
    show (keyByte s 0).toNat % s.blen = _
    simp [cursorOf, cursor, sumTo]
  | succ n ih =>
    show madd (permfAfter s n).pbc (jump (keyByte s (cinc (permfAfter s n).pkc s.klen)) s.blen) s.blen = _
    rw [ih, permfAfter_pkc, cursorOf, cursorOf, cursor_succ, madd, jump, cinc, Nat.mod_add_mod]

theorem permfAfter_pprev (s : State) (n : Nat) : (permfAfter s (n + 1)).pprev = cursorOf s n :=
  permfAfter_pbc s n

theorem permfAfter_buf (s : State) (n a : Nat) :
    bufRead s (permfAfter s n).buf a = walk (cursorOf s) n (bufByte s) a := by
  induction n generalizing a with
  | zero => rfl
  | succ n ih =>
    have h : bufRead s (permfAfter s n).buf = walk (cursorOf s) n (bufByte s) := funext ih
    have e : bufRead s (permfAfter s (n + 1)).buf a =
      exchange (bufRead s (permfAfter s n).buf) (permfAfter s (n + 1)).pbc (permfAfter s n).pbc a := swap_buf ..
    rw [e, h, permfAfter_pbc, permfAfter_pbc]
    rfl

theorem permfAfter_b (s : State) (n : Nat) :
    (permfAfter s (n + 1)).b = bufRead s (permfAfter s (n + 1)).buf (cursorOf s n) := by
  have e : (permfAfter s (n + 1)).b = bufRead s (permfAfter s (n + 1)).buf (permfAfter s n).pbc := swap_b ..
  rw [e, permfAfter_pbc]

/-! ### The reconstruction -/

theorem sumAfter_i (s : State) (q m n : Nat) : (sumAfter s q m n).i = n := by
  induction n with
  | zero => rfl
  | succ n ih => show (sumAfter s q m n).i + 1 = n + 1; rw [ih]

theorem sumAfter_sum (s : State) (q m n : Nat) :
    (sumAfter s q m n).sum = sumTo (fun i => (keyByte s i).toNat * usage q m i) n := by
  induction n with
  | zero => rfl
  | succ n ih =>
    show (sumAfter s q m n).sum + (keyByte s (sumAfter s q m n).i).toNat * usage q m (sumAfter s q m n).i = _
    rw [ih, sumAfter_i, sumTo_succ]

/-- One more key byte consumed adds one to the usage of its own index only (R145). -/
theorem usage_succ {k n : Nat} (hk : 1 ≤ k) {i : Nat} (hi : i < k) :
    usage ((n + 1) / k) ((n + 1) % k) i = usage (n / k) (n % k) i + if i = n % k then 1 else 0 := by
  have hm := Nat.mod_lt n (show k > 0 by omega)
  have hd := Nat.div_add_mod n k
  by_cases hc : n % k + 1 = k
  · have e : n + 1 = k * (n / k + 1) := by rw [Nat.mul_add]; omega
    have h1 : (n + 1) / k = n / k + 1 := by rw [e]; exact Nat.mul_div_cancel_left _ (by omega)
    have h2 : (n + 1) % k = 0 := by rw [e]; exact Nat.mul_mod_right _ _
    rw [h1, h2]
    unfold usage
    by_cases h : i = n % k
    · simp [h]
    · have : i < n % k := by omega
      simp [this, h]
  · have e : n + 1 = n % k + 1 + k * (n / k) := by omega
    have h1 : (n + 1) / k = n / k := by
      rw [e, Nat.add_mul_div_left _ _ (by omega), Nat.div_eq_of_lt (by omega)]; omega
    have h2 : (n + 1) % k = n % k + 1 := by
      rw [e, Nat.add_mul_mod_self_left, Nat.mod_eq_of_lt (by omega)]
    rw [h1, h2]
    unfold usage
    by_cases h : i = n % k
    · simp [h]
    · by_cases h3 : i < n % k
      · simp [h, h3, show i < n % k + 1 by omega]
      · simp [h, h3, show ¬ i < n % k + 1 by omega]

/-- Grouping the consumed key bytes by key index gives the usage-weighted sum (R146, R152): for every K >= 1. -/
theorem usage_sum (g : Nat → Nat) {k : Nat} (hk : 1 ≤ k) (n : Nat) :
    sumTo (fun i => g i * usage (n / k) (n % k) i) k = sumTo (fun j => g (j % k)) n := by
  induction n with
  | zero =>
    have : sumTo (fun i => g i * usage (0 / k) (0 % k) i) k = sumTo (fun _ => 0) k :=
      sumTo_congr (fun i _ => by simp [usage])
    rw [this]
    clear this hk
    induction k with
    | zero => rfl
    | succ k ih => rw [sumTo_succ, ih]; rfl
  | succ n ih =>
    rw [sumTo_succ, ← ih]
    have hm := Nat.mod_lt n (show k > 0 by omega)
    have e : sumTo (fun i => g i * usage ((n + 1) / k) ((n + 1) % k) i) k =
        sumTo (fun i => g i * usage (n / k) (n % k) i + if i = n % k then g (n % k) else 0) k :=
      sumTo_congr (fun i hi => by
        show g i * _ = _
        rw [usage_succ hk hi, Nat.mul_add]
        by_cases h : i = n % k <;> simp [h])
    rw [e]
    refine sumTo_add_at hm (fun i hi => by simp [hi]) ?_
    simp

/-- The reconstructed sum is the sum of the N + 1 key bytes the forward walk consumed. -/
theorem reconstruct_sum_eq {s : State} (hk : 1 ≤ s.klen) :
    (reconstruct s).sum = sumTo (fun j => (keyByte s (j % s.klen)).toNat) (s.blen + 1) := by
  rw [reconstruct_sum, sumAfter_sum]
  exact usage_sum (fun i => (keyByte s i).toNat) hk (s.blen + 1)

/-- The reconstructed buffer cursor is the one the forward walk ended at (R146). -/
theorem reconstruct_pbc_eq {s : State} (hk : 1 ≤ s.klen) : (reconstruct s).pbc = cursorOf s s.blen := by
  rw [reconstruct_pbc, ← reconstruct_sum, reconstruct_sum_eq hk]
  rfl

/-! ### The inverse walk -/

theorem permiAfter_t (s : State) (u : Nat) : (permiAfter s u).t = u := by
  induction u with
  | zero => rfl
  | succ u ih => show (permiAfter s u).t + 1 = u + 1; rw [ih]

theorem permiAfter_pkc {s : State} (hk : 1 ≤ s.klen) {u : Nat} (hu : u ≤ s.blen) :
    (permiAfter s u).pkc = (s.blen + 1 - u) % s.klen := by
  induction u with
  | zero => rfl
  | succ u ih =>
    show cdec (permiAfter s u).pkc s.klen = _
    rw [ih (by omega), show s.blen + 1 - u = (s.blen + 1 - (u + 1)) + 1 by omega, cdec_mod hk]

theorem permiAfter_kb {s : State} (hk : 1 ≤ s.klen) {u : Nat} (hu : u + 1 ≤ s.blen) :
    (permiAfter s (u + 1)).kb = keyByte s ((s.blen - u) % s.klen) := by
  show keyByte s (permiAfter s (u + 1)).pkc = _
  rw [permiAfter_pkc hk hu, show s.blen + 1 - (u + 1) = s.blen - u by omega]

theorem permiAfter_pbc {s : State} (hk : 1 ≤ s.klen) {u : Nat} (hu : u ≤ s.blen) :
    (permiAfter s u).pbc = cursorOf s (s.blen - u) := by
  induction u with
  | zero => exact reconstruct_pbc_eq hk
  | succ u ih =>
    show msub (permiAfter s u).pbc (jump (keyByte s (permiAfter s (u + 1)).pkc) s.blen) s.blen = _
    rw [ih (by omega), permiAfter_pkc hk hu, show s.blen - u = (s.blen - (u + 1)) + 1 by omega,
      show s.blen + 1 - (u + 1) = (s.blen - (u + 1)) + 1 by omega]
    exact cursor_back (by omega)

theorem permiAfter_pprev {s : State} (hk : 1 ≤ s.klen) {u : Nat} (hu : u + 1 ≤ s.blen) :
    (permiAfter s (u + 1)).pprev = cursorOf s (s.blen - u) :=
  permiAfter_pbc hk (by omega)

/-- After `u` inverse steps, undoing the remaining ones gives what undoing all of them from the start gives. -/
theorem permiAfter_buf {s : State} (hk : 1 ≤ s.klen) {u : Nat} (hu : u ≤ s.blen) :
    unwalk (cursorOf s) (s.blen - u) (bufRead s (permiAfter s u).buf) = unwalk (cursorOf s) s.blen (bufByte s) := by
  induction u with
  | zero => rfl
  | succ u ih =>
    rw [← ih (by omega), show s.blen - u = (s.blen - (u + 1)) + 1 by omega, unwalk]
    congr 1
    funext a
    have e : bufRead s (permiAfter s (u + 1)).buf a =
      exchange (bufRead s (permiAfter s u).buf) (permiAfter s u).pbc (permiAfter s (u + 1)).pbc a := swap_buf ..
    rw [e, permiAfter_pbc hk (by omega), permiAfter_pbc hk hu,
      show s.blen - u = (s.blen - (u + 1)) + 1 by omega]

theorem permiAfter_b {s : State} (hk : 1 ≤ s.klen) {u : Nat} (hu : u + 1 ≤ s.blen) :
    (permiAfter s (u + 1)).b = bufRead s (permiAfter s (u + 1)).buf (cursorOf s (s.blen - (u + 1))) := by
  have e : (permiAfter s (u + 1)).b = bufRead s (permiAfter s (u + 1)).buf (permiAfter s (u + 1)).pbc := swap_b ..
  rw [e, permiAfter_pbc hk hu]

/-! ### The canonical form -/

theorem permfAfter_wf {s : State} (h : s.buf.wf = true) (n : Nat) : (permfAfter s n).buf.wf = true := by
  induction n with
  | zero => exact h
  | succ n ih => exact Memory.set_wf (Memory.set_wf ih _ _) _ _

theorem permiAfter_wf {s : State} (h : s.buf.wf = true) (u : Nat) : (permiAfter s u).buf.wf = true := by
  induction u with
  | zero => exact h
  | succ u ih => exact Memory.set_wf (Memory.set_wf ih _ _) _ _

theorem permfAfter_inside {s : State} (h : ∀ c ∈ s.buf, s.params.nmax.hasOffset c.1 = true)
    (hl : s.params.nmax.admits s.blen = true) (hn : 1 ≤ s.blen) (n : Nat) :
    ∀ c ∈ (permfAfter s n).buf, s.params.nmax.hasOffset c.1 = true := by
  have hc : ∀ t, s.params.nmax.hasOffset (permfAfter s t).pbc = true := fun t => by
    rw [permfAfter_pbc]; exact Bound.hasOffset_of_admits hl (cursor_lt hn t)
  induction n with
  | zero => exact h
  | succ n ih => exact Memory.set_inside (Memory.set_inside ih (hc (n + 1)) _) (hc n) _

theorem permiAfter_inside {s : State} (h : ∀ c ∈ s.buf, s.params.nmax.hasOffset c.1 = true)
    (hl : s.params.nmax.admits s.blen = true) (hk : 1 ≤ s.klen) (hn : 1 ≤ s.blen) {u : Nat} (hu : u ≤ s.blen) :
    ∀ c ∈ (permiAfter s u).buf, s.params.nmax.hasOffset c.1 = true := by
  have hc : ∀ t, t ≤ s.blen → s.params.nmax.hasOffset (permiAfter s t).pbc = true := fun t ht => by
    rw [permiAfter_pbc hk ht]; exact Bound.hasOffset_of_admits hl (cursor_lt hn _)
  induction u with
  | zero => exact h
  | succ u ih => exact Memory.set_inside (Memory.set_inside (ih (by omega)) (hc u (by omega)) _) (hc (u + 1) hu) _

end Sys2Proof.Machine
end

