-- ==== Sys2Proof/Laws/RoundCount.lean ====
section
/-! SUPPORT. The accumulator of RCD in closed form, and the range of RoundCount (spec/40_round_count.md R111, R113). -/

namespace Sys2Proof.Machine

open Sys2Proof.Spec

theorem not8_toNat (x : Byte) : (not8 x).toNat = 255 - x.toNat := by
  have := x.isLt
  rw [not8, BitVec.toNat_sub]
  show (2 ^ 8 - x.toNat + 255) % 2 ^ 8 = _
  omega

/-- The loop's accumulator is the closed form of R113. -/
theorem rcdAcc_toNat (key : Nat → Byte) (n : Nat) : (rcdAcc key n).toNat = accumulator key n := by
  induction n with
  | zero => simp [rcdAcc, accStart, accumulator, sumTo]
  | succ n ih =>
    have hk := (key n).isLt
    rw [rcdAcc, add8, BitVec.toNat_add, ih, not8_toNat, accumulator, accumulator, sumTo_succ]
    generalize sumTo (fun i => (key i).toNat) n = x
    omega

theorem rcdFinal_toNat (x : Byte) : (rcdFinal x).toNat = if 128 ≤ x.toNat then x.toNat else 255 - x.toNat := by
  unfold rcdFinal
  by_cases h : x.toNat < 128
  · rw [if_pos h, if_neg (by omega), not8_toNat]
  · rw [if_neg h, if_pos (by omega)]

/-- RC is the closed form of R113. -/
theorem rcdFinal_rcdAcc (key : Nat → Byte) (n : Nat) : (rcdFinal (rcdAcc key n)).toNat = roundCount key n := by
  rw [rcdFinal_toNat, rcdAcc_toNat, roundCount]

/-- Always at least 128 (R111). -/
theorem le_rcdFinal (x : Byte) : 128 ≤ (rcdFinal x).toNat := by
  have := x.isLt
  rw [rcdFinal_toNat]
  split <;> omega

end Sys2Proof.Machine
end

