-- ==== Sys2Proof/Laws/Sequencer.lean ====
section
/-! SUPPORT. What a unit operation issued by a running sequencer keeps, and everything the engine's turn can do
(spec/43_engine.md R174). -/

namespace Sys2Proof.Machine

open Sys2Proof.Spec

/-! ### What fits an index register (R5) -/

theorem fitsIndex_mono {c : Params} {v w : Nat} (h : c.fitsIndex w = true) (hv : v ≤ w) : c.fitsIndex v = true := by
  unfold Params.fitsIndex at *
  cases hc : c.iw with
  | none => rfl
  | some k => rw [hc] at h; simp only [decide_eq_true_eq] at h ⊢; exact Nat.lt_of_le_of_lt hv h

theorem fitsIndex_succ_of_nmax {c : Params} {n : Nat} (h : c.wf = true) (hn : c.nmax.admits n = true) :
    c.fitsIndex (n + 1) = true := by
  unfold Params.wf Params.indexWideEnough at h
  unfold Params.fitsIndex
  cases h1 : c.iw <;> cases h2 : c.kmax <;> cases h3 : c.nmax <;> simp_all [Bound.admits]
  omega

theorem fitsIndex_of_kmax {c : Params} {k : Nat} (h : c.wf = true) (hk : c.kmax.admits k = true) :
    c.fitsIndex k = true := by
  unfold Params.wf Params.indexWideEnough at h
  unfold Params.fitsIndex
  cases h1 : c.iw <;> cases h2 : c.kmax <;> cases h3 : c.nmax <;> simp_all [Bound.admits]
  omega

theorem lengthsFit_iff {s : State} :
    lengthsFit s = true ↔ s.params.kmax.admits s.klen = true ∧ s.params.nmax.admits s.blen = true := by
  simp [lengthsFit]

/-- What every unit operation of a running command leaves as it was, or keeps legal. -/
structure UnitFrame (s t : State) : Prop where
  params : t.params = s.params
  key : t.key = s.key
  klen : t.klen = s.klen
  blen : t.blen = s.blen
  bufCanonical : t.buf.wf = true
  bufInside : ∀ c ∈ t.buf, t.params.nmax.hasOffset c.1 = true
  busy : t.busy = s.busy
  done : t.done = s.done
  err : t.err = s.err
  errcode : t.errcode = s.errcode
  progv : t.progv = s.progv
  dir : t.dir = s.dir
  phase : t.phase = s.phase
  sRounds : t.sRounds = s.sRounds
  r : t.r = s.r
  prog : t.prog = s.prog
  ptrace : t.ptrace = s.ptrace
  idleSeen : t.idleSeen = s.idleSeen
  schedule : t.schedule = s.schedule
  readLog : t.readLog = s.readLog
  epoch : t.epoch = s.epoch
  indexRegisters : ∀ v ∈ [t.p, t.skc, t.t, t.pkc, t.pbc, t.pprev, t.q, t.m, t.i], t.params.fitsIndex v = true

theorem UnitFrame.refl {s : State} (h : Invariant s) : UnitFrame s s where
  params := rfl
  key := rfl
  klen := rfl
  blen := rfl
  bufCanonical := h.bufCanonical
  bufInside := h.bufInside
  busy := rfl
  done := rfl
  err := rfl
  errcode := rfl
  progv := rfl
  dir := rfl
  phase := rfl
  sRounds := rfl
  r := rfl
  prog := rfl
  ptrace := rfl
  idleSeen := rfl
  schedule := rfl
  readLog := rfl
  epoch := rfl
  indexRegisters := h.indexRegisters

theorem execRcd_frame {s : State} (h : Invariant s) (hb : s.busy = true) :
    ∃ t, exec .rcd s = .next t ∧ UnitFrame s t ∧ 128 ≤ t.rc.toNat := by
  have hl := (lengthsFit_iff.1 (h.lengths hb)).1
  refine ⟨{ s with acc := rcdAcc (keyByte s) s.klen, rc := rcdFinal (rcdAcc (keyByte s) s.klen) },
    by simp only [exec, execRcd, hl, if_true], ?_, le_rcdFinal _⟩
  exact { UnitFrame.refl h with }

theorem substStage_frame {s : State} (h : Invariant s) (hb : s.busy = true) (f : Byte → Byte → Byte → Byte → Byte) :
    ∃ t, stage (substStage f) s = .next t ∧ UnitFrame s t ∧ t.rc = s.rc := by
  have hl := lengthsFit_iff.1 (h.lengths hb)
  have hk := h.keyNonEmpty hb
  by_cases hn : s.blen = 0
  · exact ⟨s, stage_empty _ hn, .refl h, rfl⟩
  have n1 := fitsIndex_succ_of_nmax h.params hl.2
  have k1 := fitsIndex_of_kmax h.params hl.1
  refine ⟨_, stage_run _ (by omega) hk (h.lengths hb), ?_, rfl⟩
  refine { UnitFrame.refl h with
    bufCanonical := substAfter_wf f h.bufCanonical _
    bufInside := substAfter_inside f h.bufInside hl.2 (Nat.le_refl _)
    indexRegisters := ?_ }
  have old := h.indexRegisters
  simp only [List.mem_cons, List.not_mem_nil, or_false, forall_eq_or_imp, forall_eq] at old ⊢
  obtain ⟨_, _, o3, o4, o5, o6, o7, o8, o9⟩ := old
  refine ⟨?_, ?_, o3, o4, o5, o6, o7, o8, o9⟩
  · simp only [substStage_p, substStage_params, substAfter_p]; exact fitsIndex_mono n1 (by omega)
  · simp only [substStage_skc, substStage_params]; rw [substAfter_skc f hk (Nat.le_refl _)]
    exact fitsIndex_mono k1 (by have := Nat.mod_lt (s.blen - s.blen) hk; omega)

/-- The buffer cursor fits an index register. -/
theorem cursorOf_fits {s : State} (h : Invariant s) (hb : s.busy = true) (hn : 1 ≤ s.blen) (t : Nat) :
    s.params.fitsIndex (cursorOf s t) = true :=
  fitsIndex_mono (fitsIndex_succ_of_nmax h.params (lengthsFit_iff.1 (h.lengths hb)).2)
    (by have : cursorOf s t < s.blen := cursor_lt hn t; omega)

theorem permfStage_frame {s : State} (h : Invariant s) (hb : s.busy = true) :
    ∃ t, stage permfStage s = .next t ∧ UnitFrame s t ∧ t.rc = s.rc := by
  have hl := lengthsFit_iff.1 (h.lengths hb)
  have hk := h.keyNonEmpty hb
  by_cases hn : s.blen = 0
  · exact ⟨s, stage_empty _ hn, .refl h, rfl⟩
  have n1 := fitsIndex_succ_of_nmax h.params hl.2
  have k1 := fitsIndex_of_kmax h.params hl.1
  have hc := cursorOf_fits h hb (by omega)
  obtain ⟨n, hn'⟩ : ∃ n, s.blen = n + 1 := ⟨s.blen - 1, by omega⟩
  refine ⟨_, stage_run _ (by omega) hk (h.lengths hb), ?_, rfl⟩
  refine { UnitFrame.refl h with
    bufCanonical := permfAfter_wf h.bufCanonical _
    bufInside := permfAfter_inside h.bufInside hl.2 (by omega) _
    indexRegisters := ?_ }
  have old := h.indexRegisters
  simp only [List.mem_cons, List.not_mem_nil, or_false, forall_eq_or_imp, forall_eq] at old ⊢
  obtain ⟨o1, o2, _, _, _, _, o7, o8, o9⟩ := old
  refine ⟨o1, o2, ?_, ?_, ?_, ?_, o7, o8, o9⟩
  · show s.params.fitsIndex (permfAfter s s.blen).t = true
    rw [permfAfter_t]; exact fitsIndex_mono n1 (by omega)
  · show s.params.fitsIndex (permfAfter s s.blen).pkc = true
    rw [permfAfter_pkc]; exact fitsIndex_mono k1 (by have := Nat.mod_lt s.blen hk; omega)
  · show s.params.fitsIndex (permfAfter s s.blen).pbc = true
    rw [permfAfter_pbc]; exact hc _
  · show s.params.fitsIndex (permfAfter s s.blen).pprev = true
    rw [hn', permfAfter_pprev]; exact hc _

theorem permiStage_frame {s : State} (h : Invariant s) (hb : s.busy = true) :
    ∃ t, stage permiStage s = .next t ∧ UnitFrame s t ∧ t.rc = s.rc := by
  have hl := lengthsFit_iff.1 (h.lengths hb)
  have hk := h.keyNonEmpty hb
  by_cases hn : s.blen = 0
  · exact ⟨s, stage_empty _ hn, .refl h, rfl⟩
  have n1 := fitsIndex_succ_of_nmax h.params hl.2
  have k1 := fitsIndex_of_kmax h.params hl.1
  have hc := cursorOf_fits h hb (by omega)
  obtain ⟨n, hn'⟩ : ∃ n, s.blen = n + 1 := ⟨s.blen - 1, by omega⟩
  refine ⟨_, stage_run _ (by omega) hk (h.lengths hb), ?_, rfl⟩
  refine { UnitFrame.refl h with
    bufCanonical := permiAfter_wf h.bufCanonical _
    bufInside := permiAfter_inside h.bufInside hl.2 hk (by omega) (Nat.le_refl _)
    indexRegisters := ?_ }
  have old := h.indexRegisters
  simp only [List.mem_cons, List.not_mem_nil, or_false, forall_eq_or_imp, forall_eq] at old ⊢
  obtain ⟨o1, o2, _, _, _, _, _, _, _⟩ := old
  have hpp := permiAfter_pprev (s := s) hk (u := n) (by omega)
  rw [← hn'] at hpp
  refine ⟨o1, o2, ?_, ?_, ?_, ?_, ?_, ?_, ?_⟩
  · show s.params.fitsIndex (permiAfter s s.blen).t = true
    rw [permiAfter_t]; exact fitsIndex_mono n1 (by omega)
  · show s.params.fitsIndex (permiAfter s s.blen).pkc = true
    rw [permiAfter_pkc hk (Nat.le_refl _)]
    exact fitsIndex_mono k1 (by have := Nat.mod_lt (s.blen + 1 - s.blen) hk; omega)
  · show s.params.fitsIndex (permiAfter s s.blen).pbc = true
    rw [permiAfter_pbc hk (Nat.le_refl _)]; exact hc _
  · show s.params.fitsIndex (permiAfter s s.blen).pprev = true
    rw [hpp]; exact hc _
  · show s.params.fitsIndex ((s.blen + 1) / s.klen) = true
    exact fitsIndex_mono n1 (Nat.div_le_self _ _)
  · show s.params.fitsIndex ((s.blen + 1) % s.klen) = true
    exact fitsIndex_mono k1 (by have := Nat.mod_lt (s.blen + 1) hk; omega)
  · show s.params.fitsIndex (reconstruct s).i = true
    rw [reconstruct_i, sumAfter_i]; exact k1

/-- Every unit operation the sequencer of a running command issues: it runs, and what it keeps. -/
theorem unit_frame {s : State} (h : Invariant s) (hb : s.busy = true) (i : Instr) (hi : unitOf s.phase s.dir = some i) :
    ∃ t, exec i s = .next t ∧ UnitFrame s t ∧ 128 ≤ t.rc.toNat ∧ (i ≠ .rcd → t.rc = s.rc) := by
  have inRound : ∀ p, s.phase = p → p = .sub ∨ p = .prm → 128 ≤ s.rc.toNat := by
    rintro p hp (rfl | rfl)
    · exact (h.inRound (.inl hp)).1
    · exact (h.inRound (.inr (.inl hp))).1
  have stageCase : ∀ f, s.phase = .sub ∨ s.phase = .prm → exec i s = stage f s →
      (∃ t, stage f s = .next t ∧ UnitFrame s t ∧ t.rc = s.rc) →
      ∃ t, exec i s = .next t ∧ UnitFrame s t ∧ 128 ≤ t.rc.toNat ∧ (i ≠ .rcd → t.rc = s.rc) := by
    rintro f hp he ⟨t, a, b, c⟩
    exact ⟨t, he.trans a, b, by rw [c]; exact inRound _ rfl hp, fun _ => c⟩
  cases hp : s.phase <;> cases hd : s.dir <;> rw [hp, hd] at hi <;> cases hi
  · obtain ⟨t, a, b, c⟩ := execRcd_frame h hb; exact ⟨t, a, b, c, by simp⟩
  · obtain ⟨t, a, b, c⟩ := execRcd_frame h hb; exact ⟨t, a, b, c, by simp⟩
  · exact stageCase _ (.inl hp) rfl (substStage_frame h hb subfByte)
  · exact stageCase _ (.inl hp) rfl (substStage_frame h hb subiByte)
  · exact stageCase _ (.inr hp) rfl (permfStage_frame h hb)
  · exact stageCase _ (.inr hp) rfl (permiStage_frame h hb)

/-- A phase that issues a unit operation is one of a running command. -/
theorem busy_of_unitOf {s : State} (h : Invariant s) {i : Instr} (hi : unitOf s.phase s.dir = some i) :
    s.busy = true := by
  rw [h.busyPhase]; intro hp; rw [hp] at hi; cases hi

/-- Everything the engine's turn can do. -/
theorem engineTurn_cases {s : State} (h : Invariant s) :
    (unitOf s.phase s.dir = none ∧ engineTurn s = .next s) ∨
    ∃ i t, unitOf s.phase s.dir = some i ∧ s.busy = true ∧ exec i s = .next t ∧ engineTurn s = .next (unitDone t) ∧
      UnitFrame s t ∧ 128 ≤ t.rc.toNat ∧ (i ≠ .rcd → t.rc = s.rc) := by
  rw [engineTurn_eq]
  cases hu : unitOf s.phase s.dir with
  | none => exact .inl ⟨rfl, rfl⟩
  | some i =>
    have hb := busy_of_unitOf h hu
    obtain ⟨t, a, b, c, d⟩ := unit_frame h hb i hu
    exact .inr ⟨i, t, rfl, hb, a, by show Result.map unitDone (exec i s) = _; rw [a]; rfl, b, c, d⟩

end Sys2Proof.Machine
end

