-- ==== Sys2Proof/Tests/Slice0.lean ====
section
/-! SUPPORT. Tests: the checks of WellFormed, the words of the opcode table, at most two small tests per operation with
expected values from spec/95_test_vectors.md, and one witness theorem per statement that has hypotheses. -/

open Sys2Proof Sys2Proof.Machine

namespace Sys2Proof.Tests

/-! ### Helpers -/

/-- The bytes of a memory, from an offset on. -/
def cells : Nat → List Byte → Memory
  | _, [] => []
  | n, v :: m => (n, v) :: cells (n + 1) m

/-- An idle engine with this key and buffer, the host free to act. -/
def mk (key buf : List Byte) : State :=
  { State.reset with key := cells 0 key, klen := key.length, buf := cells 0 buf, blen := buf.length }

theorem cells_wf (n : Nat) (l : List Byte) : (cells n l).wf = true := by
  induction l generalizing n with
  | nil => rfl
  | cons v l ih =>
    cases l with
    | nil => rfl
    | cons w l =>
      show (decide (n < n + 1) && Memory.wf (cells (n + 1) (w :: l))) = true
      rw [ih]
      simp

/-- The same with capacities of 16 bytes and 8-bit index registers, as in V-X6 to V-X8. -/
def mk16 (klen blen : Nat) : State :=
  { State.reset with params := ⟨some 16, some 16, some 8⟩, klen := klen, blen := blen }

/-- The outcome is a next state of which `p` holds. -/
def nextIs (o : Result) (p : State → Bool) : Bool :=
  match o with
  | .next t => p t
  | .fault _ => false
  | .refused _ => false

/-- A running command of one key byte 0x80 (RC = 128) and one buffer byte, `sr` rounds done, in phase `ph`. -/
def running (d : Dir) (ph : Phase) (sr : Nat) : State :=
  { mk [0x80#8] [0x41#8] with
    dir := d, phase := ph, busy := true, idleSeen := false
    rc := if ph = .kdf then 0#8 else 128#8
    sRounds := BitVec.ofNat 8 sr
    r := roundValue d 128#8 (BitVec.ofNat 8 sr)
    progv := decide (ph = .rpt)
    prog := progWord (roundValue d 128#8 (BitVec.ofNat 8 sr)) 128#8
    ptrace := if ph = .rpt then [(roundValue d 128#8 (BitVec.ofNat 8 sr), 128#8)] else [] }

theorem running_inv (d : Dir) (ph : Phase) (sr : Nat) (hp : ph ≠ .idle) (hs : sr ≤ 127) (hk : ph = .kdf → sr = 0) :
    Invariant (running d ph sr) := by
  have hsr : (BitVec.ofNat 8 sr).toNat = sr := by simp; omega
  have hr : (roundValue d 128#8 (BitVec.ofNat 8 sr)).toNat < 128 := by
    cases d
    · show (BitVec.ofNat 8 sr).toNat < 128; omega
    · show (128#8 - 1#8 - BitVec.ofNat 8 sr).toNat < 128
      rw [BitVec.toNat_sub, hsr]; simp; omega
  constructor
  case events =>
    intro e he
    cases ph <;> simp [running] at he
    subst he
    exact ⟨by simp, hr⟩
  case inRound =>
    intro h
    have hk' : ph ≠ .kdf := by rintro rfl; simp [running] at h
    simp only [running, if_neg hk', hsr]
    exact ⟨by decide, by show sr < 128; omega, trivial⟩
  case noRoundYet => intro h; have := hk h; subst this; rfl
  case eventPending =>
    intro h
    have h' : ph = .rpt := h
    subst h'
    exact ⟨rfl, rfl⟩
  case busyPhase => exact iff_of_true rfl hp
  case progvPhase => exact decide_eq_true_iff
  case roundCount => cases ph <;> simp [running]
  case keyInside => intro c hc; rfl
  case bufInside => intro c hc; rfl
  case indexRegisters => intro v hv; rfl
  case unseen => intro _; rfl
  case lengths => intro _; rfl
  case keyNonEmpty => intro _; exact Nat.le_refl 1
  all_goals first | rfl | simp [running, mk, State.reset]

/-- An idle engine, any flags clear, whose lengths fit, is a legal state; a command word is accepted in it. -/
theorem mk_inv (key buf : List Byte) : Invariant (mk key buf) where
  params := rfl
  keyCanonical := cells_wf 0 key
  bufCanonical := cells_wf 0 buf
  keyInside := fun _ _ => rfl
  bufInside := fun _ _ => rfl
  klenFits := rfl
  blenFits := rfl
  busyPhase := by simp [mk, State.reset]
  progvPhase := by simp [mk, State.reset]
  busyNotDone := by simp [mk, State.reset]
  busyNotErr := by simp [mk, State.reset]
  doneNotErr := by simp [mk, State.reset]
  errHasCode := by simp [mk, State.reset]
  keyNonEmpty := by simp [mk, State.reset]
  lengths := fun _ => rfl
  roundCount := .inl rfl
  noRoundYet := fun _ => rfl
  inRound := by simp [mk, State.reset]
  eventPending := by simp [mk, State.reset]
  events := fun _ h => by cases h
  unseen := by simp [mk, State.reset]
  indexRegisters := fun _ _ => rfl

theorem mk_ready (v : Byte) (key buf : List Byte) : Ready (mk (v :: key) buf) where
  inv := mk_inv _ _
  notBusy := rfl
  idleSeen := rfl
  keyNonEmpty := Nat.succ_le_succ (Nat.zero_le _)
  lengths := rfl

/-! ### WellFormed: each check refuses an ill-formed term -/

theorem test_host_cannot_issue_rcd : Instr.rcd.wellFormed .host = false := by decide
theorem test_sequencer_cannot_issue_enc : Instr.enc.wellFormed .sequencer = false := by decide
theorem test_register_8_does_not_exist : (HostMove.rd 8).wellFormed Params.unbounded = false := by decide
theorem test_write_register_8 : (HostMove.wr 8 0).wellFormed Params.unbounded = false := by decide
theorem test_status_is_read_only : (HostMove.wr 1 0).wellFormed Params.unbounded = false := by decide
theorem test_command_has_8_bits : (HostMove.wr 0 256).wellFormed Params.unbounded = false := by decide
theorem test_klen_has_iw_bits : (HostMove.wr 2 256).wellFormed ⟨some 16, some 16, some 8⟩ = false := by decide
theorem test_blen_has_iw_bits : (HostMove.wr 3 256).wellFormed ⟨some 16, some 16, some 8⟩ = false := by decide
theorem test_key_write_above_capacity : (HostMove.kw 16 0#8).wellFormed ⟨some 16, some 16, some 8⟩ = false := by decide
theorem test_key_read_above_capacity : (HostMove.kr 16).wellFormed ⟨some 16, some 16, some 8⟩ = false := by decide
theorem test_buf_write_above_capacity : (HostMove.bw 16 0#8).wellFormed ⟨some 16, some 16, some 8⟩ = false := by decide
theorem test_buf_read_above_capacity : (HostMove.br 16).wellFormed ⟨some 16, some 16, some 8⟩ = false := by decide
theorem test_params_empty_key_memory : Params.wf ⟨some 0, some 0, some 8⟩ = false := by decide
theorem test_params_key_too_big_for_iw : Params.wf ⟨some 256, some 16, some 8⟩ = false := by decide
theorem test_params_buf_too_big_for_iw : Params.wf ⟨some 16, some 255, some 8⟩ = false := by decide
theorem test_params_unbounded_capacity_needs_unbounded_iw : Params.wf ⟨none, some 16, some 8⟩ = false := by decide
theorem test_params_greatest : Params.wf ⟨some 255, some 254, some 8⟩ = true := by decide

/-! ### Decode: the words of R90, R93 written out bit by bit (field ZERO, then OP) -/

theorem test_decode_enc : decodeCommand 0b00000001#8 = .ok .enc := by rfl
theorem test_decode_dec : decodeCommand 0b00000010#8 = .ok .dec := by rfl
theorem test_decode_rcd : decodeUnit 0b011#3 = .ok .rcd := by rfl
theorem test_decode_subf : decodeUnit 0b100#3 = .ok .subf := by rfl
theorem test_decode_subi : decodeUnit 0b101#3 = .ok .subi := by rfl
theorem test_decode_permf : decodeUnit 0b110#3 = .ok .permf := by rfl
theorem test_decode_permi : decodeUnit 0b111#3 = .ok .permi := by rfl
theorem test_decode_no_operation : decodeCommand 0b00000000#8 = .error .noOperation := by rfl
theorem test_decode_unit_code_from_host : decodeCommand 0b00000011#8 = .error .unitCodeFromHost := by rfl
theorem test_decode_zero_field : decodeCommand 0b00001001#8 = .error .zeroFieldSet := by rfl
theorem test_decode_top_bit : decodeCommand 0b10000001#8 = .error .zeroFieldSet := by rfl
theorem test_decode_unit_none : decodeUnit 0b000#3 = .error .noOperation := by rfl
theorem test_decode_unit_enc : decodeUnit 0b001#3 = .error .commandCodeFromSequencer := by rfl
theorem test_table_words : [1, 2, 3, 4, 5, 6, 7].map (decodeTableWord 8) =
    [some .enc, some .dec, some .rcd, some .subf, some .subi, some .permf, some .permi] := by decide
theorem test_table_word_illegal : [0, 8, 9, 0x11, 0x81, 0xFF].map (decodeTableWord 8) =
    [none, none, none, none, none, none] := by decide

/-- V-X4 and V-X5: words the host cannot use are rejected with STATUS = 0x44. -/
theorem test_illegal_words : [0x03#8, 0x04#8, 0x05#8, 0x06#8, 0x07#8, 0x09#8, 0x81#8, 0xFF#8, 0x11#8].all
    (fun w => nextIs (writeCommand w (mk16 1 0)) fun t => statusWord t == 0x44#8) = true := by decide

/-! ### withFetchWord: each word, placed in the reset state, is what the next step runs -/

theorem test_fetch_enc : nextIs (step (State.reset.withFetchWord 8 1)) (fun t => t.errcode == .keyEmpty) = true := by
  decide
theorem test_fetch_dec : nextIs (step (State.reset.withFetchWord 8 2)) (fun t => t.errcode == .keyEmpty) = true := by
  decide
theorem test_fetch_rcd : nextIs (step (State.reset.withFetchWord 8 3)) (fun t => t.rc == 255#8) = true := by decide
theorem test_fetch_subf : nextIs (step (State.reset.withFetchWord 8 4)) (fun t => t.phase == .prm) = true := by decide
theorem test_fetch_subi : nextIs (step (State.reset.withFetchWord 8 5)) (fun t => t.phase == .rpt) = true := by decide
theorem test_fetch_permf : nextIs (step (State.reset.withFetchWord 8 6)) (fun t => t.phase == .rpt) = true := by decide
theorem test_fetch_permi : nextIs (step (State.reset.withFetchWord 8 7)) (fun t => t.phase == .sub) = true := by decide

/-! ### The operations: spec/95_test_vectors.md -/

/-- V-X9: a new command clears ERR and is accepted. -/
theorem test_enc_accepted : nextIs (exec .enc { mk [0x80#8] [] with err := true, errcode := .keyEmpty })
    (fun t => statusWord t == 0x01#8 && t.phase == .kdf) = true := by decide

/-- V-X8: the empty key is found before the length. -/
theorem test_enc_empty_key_first : nextIs (exec .enc (mk16 0 17)) (fun t => statusWord t == 0x24#8) = true := by decide

/-- V-X2. -/
theorem test_dec_empty_key : nextIs (exec .dec State.reset) (fun t => statusWord t == 0x24#8) = true := by decide

/-- V-X7. -/
theorem test_dec_length : nextIs (exec .dec (mk16 1 17)) (fun t => statusWord t == 0x64#8) = true := by decide

/-- V-R17. -/
theorem test_rcd_wraps : nextIs (exec .rcd (mk [0x01#8, 0x80#8] [])) (fun t => t.acc == 125#8 && t.rc == 130#8) = true := by
  decide

/-- V-R8. -/
theorem test_rcd_keeps : nextIs (exec .rcd (mk [1#8, 2#8, 3#8] [])) (fun t => t.acc == 247#8 && t.rc == 247#8) = true := by
  decide

/-- V-S4. -/
theorem test_subf_byte : subfByte 0xff#8 0xff#8 254#8 255#8 = 0x01#8 := by decide

/-- V-S12: the cursor starts at N mod K and K > N. -/
theorem test_subf_stage :
    nextIs (exec .subf { mk [0x0a#8, 0x14#8, 0x1e#8, 0x28#8, 0x32#8] [0xaa#8, 0xbb#8, 0xcc#8] with r := 7#8, rc := 200#8 })
      (fun t => t.buf == cells 0 [0xa4#8, 0xa1#8, 0xc6#8]) = true := by decide

/-- V-S6, backwards. -/
theorem test_subi_byte : subiByte 0xd8#8 0x7f#8 200#8 201#8 = 0x80#8 := by decide

/-- V-S13, backwards: K = 1. -/
theorem test_subi_stage :
    nextIs (exec .subi { mk [0x5a#8] [0x49#8, 0x00#8, 0x03#8, 0x02#8] with r := 1#8, rc := 165#8 })
      (fun t => t.buf == cells 0 [0x00#8, 0x01#8, 0x02#8, 0x03#8]) = true := by decide

/-- V-P1. -/
theorem test_permf_chain :
    nextIs (exec .permf (mk [1#8, 2#8, 3#8] [0x10#8, 0x11#8, 0x12#8, 0x13#8, 0x14#8, 0x15#8, 0x16#8, 0x17#8]))
      (fun t => t.buf == cells 0 [0x10#8, 0x14#8, 0x11#8, 0x16#8, 0x15#8, 0x13#8, 0x17#8, 0x12#8] &&
        t.pkc == 2 && t.pbc == 2) = true := by decide

/-- V-P5: K = 1. -/
theorem test_permf_one_key_byte :
    nextIs (exec .permf (mk [7#8] [0#8, 1#8, 2#8, 3#8, 4#8]))
      (fun t => t.buf == cells 0 [4#8, 3#8, 2#8, 0#8, 1#8] && t.pkc == 0 && t.pbc == 2) = true := by decide

/-- V-P2. -/
theorem test_permi_chain :
    nextIs (exec .permi (mk [1#8, 2#8, 3#8] [0x10#8, 0x14#8, 0x11#8, 0x16#8, 0x15#8, 0x13#8, 0x17#8, 0x12#8]))
      (fun t => t.buf == cells 0 [0x10#8, 0x11#8, 0x12#8, 0x13#8, 0x14#8, 0x15#8, 0x16#8, 0x17#8] &&
        t.pkc == 1 && t.pbc == 1) = true := by decide

/-- V-P4: unequal usage counts; the columns are Q, M, SUM, PBC, PKC. -/
theorem test_permi_reconstruction :
    (let t := reconstruct (mk [0xff#8, 0xfe#8, 0x80#8, 0x7f#8] (List.replicate 10 0#8))
     [t.q, t.m, t.sum, t.pbc, t.pkc]) = [2, 3, 2165, 5, 3] := by decide

/-- V-X13 and V-X12: an acknowledgement in mid-command, at the last round, and with nothing pending. -/
theorem test_ack_next_round : nextIs (hostMove (.wr 7 0xFF) (running .enc .rpt 0))
    (fun t => statusWord t == 0x01#8 && t.r == 1#8) = true := by decide
theorem test_ack_completes : nextIs (hostMove (.wr 7 0xFF) (running .enc .rpt 127))
    (fun t => statusWord t == 0x02#8) = true := by decide
theorem test_ack_nothing_pending : hostMove (.wr 7 0x55) State.reset = .next State.reset := by rfl

/-- V-X11: a rejected command keeps DIR. -/
theorem test_rejection_keeps_dir : nextIs (hostMove (.wr 0 0) { State.reset with done := true, dir := .dec })
    (fun t => statusWord t == 0x4C#8) = true := by decide

/-! ### Witnesses: states and operands that meet the hypotheses of each statement, at the ends of their ranges -/

theorem witness_StepRunsTheWrittenCommand :
    let s : State := { mk [0x80#8] [] with schedule := [.host (.wr 0 (0x01#8 : Byte).toNat)] }
    s.schedule = .host (.wr 0 (0x01#8 : Byte).toNat) :: [] ∧ s.busy = false ∧ s.idleSeen = true ∧
      decodeCommand 0x01#8 = .ok .enc := ⟨rfl, rfl, rfl, rfl⟩

theorem witness_StepRunsTheIssuedUnitOperation :
    ((running .enc .kdf 0).schedule = [] ∧ unitSelect (running .enc .kdf 0).phase (running .enc .kdf 0).dir = some 0b011#3 ∧
      decodeUnit 0b011#3 = .ok .rcd) ∧
    (let s : State := { running .dec .sub 127 with schedule := [.engine] }
     (∃ rest, s.schedule = .engine :: rest) ∧ unitSelect s.phase s.dir = some 0b101#3 ∧ decodeUnit 0b101#3 = .ok .subi) :=
  ⟨⟨rfl, rfl, rfl⟩, ⟨[], rfl⟩, rfl, rfl⟩

theorem witness_IndexOperationsWrap : ((1 ≤ 1 ∧ 0 < 1) ∧ 0 < 1) ∧ ((1 ≤ 2 ∧ 1 < 2) ∧ 1 < 2) := by decide

theorem witness_ResetInputClearsEverything :
    let s : State := { running .dec .rpt 127 with schedule := [.reset] }
    let s2 : State := { State.reset with schedule := [.reset] }
    s.schedule = .reset :: [] ∧ s2.schedule = s.schedule ∧ s2.params = s.params ∧ s2.readLog = s.readLog ∧
      s2.epoch = s.epoch := ⟨rfl, rfl, rfl, rfl, rfl⟩

theorem witness_EveryStepKeepsSafety :
    (Invariant State.reset ∧ ∃ t, step State.reset = .next t) ∧
    (Invariant (running .enc .prm 127) ∧ ∃ t, step (running .enc .prm 127) = .next t) :=
  ⟨⟨mk_inv [] [], _, rfl⟩, ⟨running_inv _ _ _ (by decide) (by decide) (by decide), _, rfl⟩⟩

theorem witness_NothingFailsOnceAccepted : Invariant (running .dec .sub 0) :=
  running_inv _ _ _ (by decide) (by decide) (by decide)

theorem witness_RcdClosedForm :
    (1 ≤ (mk [0#8] []).klen ∧ (mk [0#8] []).params.kmax.admits (mk [0#8] []).klen = true) ∧
    (1 ≤ (mk [1#8] []).klen ∧ 1 ≤ (mk [0#8, 0#8] []).klen ∧ (∃ t, exec .rcd (mk [1#8] []) = .next t) ∧
      (∃ t, exec .rcd (mk [0#8, 0#8] []) = .next t) ∧
      ((mk [1#8] []).klen + Spec.sumTo (fun i => (keyByte (mk [1#8] []) i).toNat) (mk [1#8] []).klen) % 256 =
        ((mk [0#8, 0#8] []).klen + Spec.sumTo (fun i => (keyByte (mk [0#8, 0#8] []) i).toNat) (mk [0#8, 0#8] []).klen) %
          256) ∧
    (let s1 := mk [1#8, 2#8] []
     let s2 := mk [2#8, 1#8] []
     let f : Nat → Nat := fun i => 1 - i
     1 ≤ s1.klen ∧ s1.klen = s2.klen ∧ (∃ t, exec .rcd s1 = .next t) ∧ (∃ t, exec .rcd s2 = .next t) ∧
      (∀ i, i < s1.klen → f i < s1.klen ∧ keyByte s2 i = keyByte s1 (f i)) ∧
      ∀ i j, i < s1.klen → j < s1.klen → f i = f j → i = j) := by
  refine ⟨⟨by decide, rfl⟩, ⟨by decide, by decide, ⟨_, rfl⟩, ⟨_, rfl⟩, by decide⟩, by decide, rfl, ⟨_, rfl⟩, ⟨_, rfl⟩, ?_, ?_⟩
  · intro i hi
    match i, hi with
    | 0, _ => exact ⟨by decide, rfl⟩
    | 1, _ => exact ⟨by decide, rfl⟩
  · intro i j hi hj h
    have h1 : i < 2 := hi
    have h2 : j < 2 := hj
    have h3 : 1 - i = 1 - j := h
    omega

theorem witness_RoundCountInRange :
    (∃ t, exec .rcd (mk [0x80#8] []) = .next t ∧ t.acc.toNat ≤ 127) ∧
    (∃ t, exec .rcd (mk [0x7f#8] []) = .next t ∧ 128 ≤ t.acc.toNat) ∧
    (Invariant (running .enc .sub 127) ∧ (running .enc .sub 127).phase = .sub) ∧
    (Invariant (running .dec .prm 0) ∧ (running .dec .prm 0).phase = .prm) ∧
    (Invariant (running .dec .rpt 0) ∧ (running .dec .rpt 0).phase = .rpt) :=
  ⟨⟨_, rfl, by decide⟩, ⟨_, rfl, by decide⟩, ⟨running_inv _ _ _ (by decide) (by decide) (by decide), rfl⟩,
    ⟨running_inv _ _ _ (by decide) (by decide) (by decide), rfl⟩,
    ⟨running_inv _ _ _ (by decide) (by decide) (by decide), rfl⟩⟩

theorem witness_RoundCountDependsOnKeyOnly :
    let s1 := mk [5#8] [1#8]
    let s2 : State := { mk [5#8, 9#8] [] with klen := 1, dir := .dec }
    s1.klen = s2.klen ∧ (∀ i, i < s1.klen → keyByte s1 i = keyByte s2 i) ∧ (∃ t, exec .rcd s1 = .next t) ∧
      ∃ t, exec .rcd s2 = .next t := by
  refine ⟨rfl, ?_, ⟨_, rfl⟩, ⟨_, rfl⟩⟩
  intro i hi
  match i, hi with
  | 0, _ => rfl

/-- One byte of each; a key longer than the buffer; lengths equal to their capacities. -/
theorem witness_stage :
    (1 ≤ (mk [0#8] [0#8]).blen ∧ 1 ≤ (mk [0#8] [0#8]).klen ∧ lengthsFit (mk [0#8] [0#8]) = true) ∧
    (1 ≤ (mk [1#8, 2#8, 3#8] [0#8]).blen ∧ 1 ≤ (mk [1#8, 2#8, 3#8] [0#8]).klen ∧
      lengthsFit (mk [1#8, 2#8, 3#8] [0#8]) = true) ∧
    (1 ≤ (mk16 16 16).blen ∧ 1 ≤ (mk16 16 16).klen ∧ lengthsFit (mk16 16 16) = true) := by decide

theorem witness_SubfResult : 1 ≤ (mk16 16 16).blen ∧ 1 ≤ (mk16 16 16).klen ∧ lengthsFit (mk16 16 16) = true := by decide
theorem witness_SubiResult : 1 ≤ (mk16 1 1).blen ∧ 1 ≤ (mk16 1 1).klen ∧ lengthsFit (mk16 1 1) = true := by decide
theorem witness_SubstitutionStagesInvert : 1 ≤ (mk16 1 0).klen ∧ lengthsFit (mk16 1 0) = true := by decide
theorem witness_EmptyBufferStagesDoNothing : (mk16 0 0).blen = 0 ∧ (mk16 16 0).blen = 0 := by decide

theorem witness_UnitOperationsStopOnlyOutsideCommands :
    (1 ≤ (mk16 0 1).blen ∧ (mk16 0 1).klen = 0) ∧
    (1 ≤ (mk16 17 1).blen ∧ 1 ≤ (mk16 17 1).klen ∧ lengthsFit (mk16 17 1) = false) ∧
    (1 ≤ (mk16 1 17).blen ∧ 1 ≤ (mk16 1 17).klen ∧ lengthsFit (mk16 1 17) = false) ∧
    (∃ e, exec .subf (mk16 0 1) = .fault e) ∧ (mk16 17 0).params.kmax.admits (mk16 17 0).klen = false ∧
    (mk16 0 0).klen = 0 :=
  ⟨by decide, by decide, by decide, ⟨_, rfl⟩, by decide, by decide⟩

theorem witness_PermfResult : 1 ≤ (mk16 16 1).blen ∧ 1 ≤ (mk16 16 1).klen ∧ lengthsFit (mk16 16 1) = true := by decide
theorem witness_PermiResult : 1 ≤ (mk16 1 16).blen ∧ 1 ≤ (mk16 1 16).klen ∧ lengthsFit (mk16 1 16) = true := by decide

theorem witness_ReconstructionFindsTheEndOfTheWalk :
    1 ≤ (mk [9#8] [1#8]).blen ∧ 1 ≤ (mk [9#8] [1#8]).klen ∧ ∃ t, exec .permf (mk [9#8] [1#8]) = .next t :=
  ⟨by decide, by decide, _, rfl⟩

theorem witness_PermutationStagesInvert : 1 ≤ (mk16 1 0).klen ∧ lengthsFit (mk16 1 0) = true := by decide

theorem witness_PermfRearrangesByKeyAndLengthOnly :
    let s := mk [9#8] [1#8, 2#8]
    let s2 := mk [9#8] [3#8, 4#8]
    1 ≤ s.klen ∧ lengthsFit s = true ∧ 0 < s.blen ∧ s2.klen = s.klen ∧ s2.blen = s.blen ∧ lengthsFit s2 = true ∧
      ∀ i, i < s.klen → keyByte s2 i = keyByte s i := by
  refine ⟨by decide, rfl, by decide, rfl, rfl, rfl, ?_⟩
  intro i hi
  match i, hi with
  | 0, _ => rfl

theorem witness_PermiIgnoresForwardCursors :
    (∃ t, exec .permi (mk [9#8] [1#8, 2#8]) = .next t) ∧
    ∃ u, exec .permi { mk [9#8] [1#8, 2#8] with
      t := 1, pkc := 2, pbc := 3, pprev := 4, q := 5, m := 6, i := 7, sum := 8, b := 9#8, kb := 10#8 } = .next u :=
  ⟨⟨_, rfl⟩, _, rfl⟩

theorem witness_LegalCommandsAreAccepted :
    ((mk16 16 16).busy = false ∧ 1 ≤ (mk16 16 16).klen ∧ lengthsFit (mk16 16 16) = true) ∧
    ((mk16 1 0).busy = false ∧ 1 ≤ (mk16 1 0).klen ∧ lengthsFit (mk16 1 0) = true) := by decide

theorem witness_EmptyKeyIsRejected : State.reset.busy = false ∧ State.reset.klen = 0 := by decide

theorem witness_LengthsAboveCapacityAreRejected :
    ((mk16 17 0).busy = false ∧ 1 ≤ (mk16 17 0).klen ∧ (mk16 17 0).params.kmax.admits (mk16 17 0).klen = false) ∧
    ((mk16 1 17).busy = false ∧ 1 ≤ (mk16 1 17).klen ∧ (mk16 1 17).params.nmax.admits (mk16 1 17).blen = false) ∧
    (State.reset.params.kmax = none ∧ State.reset.params.nmax = none) := by decide

theorem witness_CommandWriteIsJudgedInOrder :
    ({ running .enc .rpt 0 with schedule := [.host (.wr 0 (1#8 : Byte).toNat)] } : State).busy = true ∧
    ({ mk16 1 0 with schedule := [.host (.wr 0 (0#8 : Byte).toNat)] } : State).busy = false ∧ (mk16 1 0).idleSeen = true ∧
    ((0x00#8 : Byte) ≠ 0x01#8 ∧ (0x00#8 : Byte) ≠ 0x02#8) ∧ ((0x03#8 : Byte) ≠ 0x01#8 ∧ (0x03#8 : Byte) ≠ 0x02#8) ∧
    (mk16 0 17).klen = 0 ∧ (1 ≤ (mk16 17 0).klen ∧ lengthsFit (mk16 17 0) = false) ∧
    (1 ≤ (mk16 16 16).klen ∧ lengthsFit (mk16 16 16) = true) := by decide

theorem witness_RejectionIsPrecise :
    let s : State := { State.reset with schedule := [.host (.wr 0 0)] }
    s.schedule = .host (.wr 0 0) :: [] ∧ ∃ t, step s = .next t ∧ t.err = true := ⟨rfl, _, rfl, rfl⟩

theorem witness_SequencerRunsTheTable :
    (Invariant (running .enc .kdf 0) ∧ (running .enc .kdf 0).phase = .kdf ∧ (running .enc .kdf 0).dir = .enc) ∧
    (Invariant (running .dec .kdf 0) ∧ (running .dec .kdf 0).phase = .kdf ∧ (running .dec .kdf 0).dir = .dec) ∧
    (Invariant (running .enc .sub 0) ∧ (running .enc .sub 0).phase = .sub ∧ (running .enc .sub 0).dir = .enc) ∧
    (Invariant (running .enc .prm 127) ∧ (running .enc .prm 127).phase = .prm ∧ (running .enc .prm 127).dir = .enc) ∧
    (Invariant (running .dec .prm 0) ∧ (running .dec .prm 0).phase = .prm ∧ (running .dec .prm 0).dir = .dec) ∧
    (Invariant (running .dec .sub 127) ∧ (running .dec .sub 127).phase = .sub ∧ (running .dec .sub 127).dir = .dec) := by
  refine ⟨⟨?_, rfl, rfl⟩, ⟨?_, rfl, rfl⟩, ⟨?_, rfl, rfl⟩, ⟨?_, rfl, rfl⟩, ⟨?_, rfl, rfl⟩, ⟨?_, rfl, rfl⟩⟩ <;>
    exact running_inv _ _ _ (by decide) (by decide) (by decide)

theorem witness_AcknowledgementEndsTheRound :
    255 < 256 ∧ State.reset.progv = false ∧
    (Invariant (running .dec .rpt 126) ∧ (running .dec .rpt 126).phase = .rpt ∧
      (running .dec .rpt 126).sRounds.toNat < (running .dec .rpt 126).rc.toNat - 1) ∧
    (Invariant (running .enc .rpt 127) ∧ (running .enc .rpt 127).phase = .rpt ∧
      (running .enc .rpt 127).sRounds.toNat = (running .enc .rpt 127).rc.toNat - 1) :=
  ⟨by decide, rfl, ⟨running_inv _ _ _ (by decide) (by decide) (by decide), rfl, by decide⟩,
    ⟨running_inv _ _ _ (by decide) (by decide) (by decide), rfl, by decide⟩⟩

theorem witness_PhaseChangesOnlyByTheTable :
    (Invariant (running .enc .kdf 0) ∧ ∃ t, step (running .enc .kdf 0) = .next t ∧ t.phase ≠ (running .enc .kdf 0).phase) ∧
    (Invariant (running .dec .sub 127) ∧
      ∃ t, step (running .dec .sub 127) = .next t ∧ t.phase ≠ (running .dec .sub 127).phase) :=
  ⟨⟨running_inv _ _ _ (by decide) (by decide) (by decide), _, rfl, by decide⟩,
    ⟨running_inv _ _ _ (by decide) (by decide) (by decide), _, rfl, by decide⟩⟩

theorem witness_RunningCommandCannotBeCancelled :
    Invariant (running .enc .sub 0) ∧ (running .enc .sub 0).busy = true ∧
    (∀ rest, (running .enc .sub 0).schedule ≠ .reset :: rest) ∧ (∃ t, step (running .enc .sub 0) = .next t) ∧
    (running .enc .sub 0).phase ≠ .rpt ∧ (running .enc .sub 0).schedule = [] :=
  ⟨running_inv _ _ _ (by decide) (by decide) (by decide), rfl, fun _ h => (by cases h), ⟨_, rfl⟩, by decide, rfl⟩

theorem witness_UnacknowledgedEventHangs :
    Invariant (running .enc .rpt 127) ∧ (running .enc .rpt 127).phase = .rpt ∧
    ∀ a, a ∈ [Turn.engine, Turn.host (.rd 7)] → a = .engine ∨ ∃ n, n ≤ 7 ∧ a = .host (.rd n) := by
  refine ⟨running_inv _ _ _ (by decide) (by decide) (by decide), rfl, ?_⟩
  intro a ha
  simp only [List.mem_cons, List.not_mem_nil, or_false] at ha
  rcases ha with rfl | rfl
  · exact .inl rfl
  · exact .inr ⟨7, by decide, rfl⟩

theorem witness_OperationsWriteOnlyTheirOwnState :
    (∃ t, exec .enc (mk [9#8] [1#8]) = .next t) ∧ (∃ t, exec .dec (mk [9#8] [1#8]) = .next t) ∧
    (∃ t, exec .rcd (mk [9#8] [1#8]) = .next t) ∧ (∃ t, exec .subf (mk [9#8] [1#8]) = .next t) ∧
    (∃ t, exec .subi (mk [9#8] [1#8]) = .next t) ∧ (∃ t, exec .permf (mk [9#8] [1#8]) = .next t) ∧
    (∃ t, exec .permi (mk [9#8] [1#8]) = .next t) :=
  ⟨⟨_, rfl⟩, ⟨_, rfl⟩, ⟨_, rfl⟩, ⟨_, rfl⟩, ⟨_, rfl⟩, ⟨_, rfl⟩, ⟨_, rfl⟩⟩

theorem witness_WholeCommandComputesItsFunction : Ready (mk [0x80#8] [0x41#8]) := mk_ready _ _ _
theorem witness_DecryptionUndoesEncryption : Ready (mk [0#8] []) := mk_ready _ _ _
theorem witness_EmptyBufferCommandReportsItsRounds : Ready (mk [0x80#8] []) ∧ (mk [0x80#8] []).blen = 0 :=
  ⟨mk_ready _ _ _, rfl⟩

theorem witness_CommandsAreDeterministic :
    let s1 := mk [5#8] [1#8]
    let s2 : State := { mk [5#8] [1#8] with readLog := [⟨.reg 1, 0⟩], schedule := [.engine] }
    Ready s1 ∧ Ready s2 ∧ s1.klen = s2.klen ∧ s1.blen = s2.blen ∧ (∀ i, i < s1.klen → keyByte s1 i = keyByte s2 i) ∧
      ∀ a, a < s1.blen → bufByte s1 a = bufByte s2 a :=
  ⟨mk_ready _ _ _, { mk_ready 5#8 [] [1#8] with inv := { mk_inv [5#8] [1#8] with } }, rfl, rfl, fun _ _ => rfl,
    fun _ _ => rfl⟩

theorem witness_EachByteDependsOnOneByte :
    let s2 := mk [5#8] [1#8, 7#8]
    let s3 := mk [5#8] [2#8, 7#8]
    Ready s2 ∧ Ready s3 ∧ s3.klen = s2.klen ∧ s3.blen = s2.blen ∧ (∀ i, i < s2.klen → keyByte s3 i = keyByte s2 i) ∧
      0 < s2.blen ∧ bufByte s2 0 ≠ bufByte s3 0 ∧ ∀ q, q < s2.blen → q ≠ 0 → bufByte s2 q = bufByte s3 q := by
  refine ⟨mk_ready _ _ _, mk_ready _ _ _, rfl, rfl, fun _ _ => rfl, by decide, by decide, ?_⟩
  intro q hq h0
  match q, hq, h0 with
  | 1, _, _ => rfl

theorem witness_HostActsExactlyWhereItMay :
    hostMay State.reset (.wr 0 255) = true ∧ hostMay State.reset (.wr 0 256) = false ∧
    hostMay State.reset (.rd 7) = true ∧ hostMay State.reset (.rd 8) = false ∧
    hostMay (running .enc .rpt 0) (.wr 7 0) = true ∧ hostMay (running .enc .rpt 0) (.br 0) = false ∧
    hostMay (mk16 1 1) (.kw 15 0#8) = true ∧ hostMay (mk16 1 1) (.kw 16 0#8) = false := by decide

theorem witness_RegisterReadsReturnTheRegisters :
    ((0 : Nat) = 0 ∧ (0 : Nat) = 0) ∧ ((7 : Nat) = 7 ∧ (0 : Nat) = 0) ∧ (1 = 1 ∧ 0 = (statusWord State.reset).toNat) := by
  decide

theorem witness_LengthRegistersReadBack :
    (mk16 1 1).busy = false ∧ (mk16 1 1).idleSeen = true ∧ (mk16 1 1).params.fitsIndex 0 = true ∧
    (mk16 1 1).params.fitsIndex 255 = true := by decide

theorem witness_HostMemoryAccesses :
    (mk16 1 1).busy = false ∧ (mk16 1 1).idleSeen = true ∧ (mk16 1 1).params.kmax.hasOffset 15 = true ∧
    (mk16 1 1).params.nmax.hasOffset 0 = true := by decide

theorem witness_EveryRunOfACommandComputesItsFunction :
    Ready (mk [0x80#8] [0x41#8]) ∧
    ∀ a, a ∈ [Turn.host (.wr 7 255), Turn.engine, Turn.host (.rd 7), Turn.host (.wr 7 0)] →
      a = .engine ∨ (∃ n, n ≤ 7 ∧ a = .host (.rd n)) ∨ ∃ v, v < 256 ∧ a = .host (.wr 7 v) := by
  refine ⟨mk_ready _ _ _, ?_⟩
  intro a ha
  simp only [List.mem_cons, List.not_mem_nil, or_false] at ha
  rcases ha with rfl | rfl | rfl | rfl
  · exact .inr (.inr ⟨255, by decide, rfl⟩)
  · exact .inl rfl
  · exact .inr (.inl ⟨7, by decide, rfl⟩)
  · exact .inr (.inr ⟨0, by decide, rfl⟩)

end Sys2Proof.Tests
end

section
/-! The byte and index operations of spec/00_scope.md: R10 (O5) and R12 (O6). -/

namespace Sys2Proof

theorem add8_toNat (a b : Byte) : (add8 a b).toNat = (a.toNat + b.toNat) % 256 := BitVec.toNat_add a b

theorem sub8_toNat (a b : Byte) : (sub8 a b).toNat = (a.toNat + 256 - b.toNat) % 256 := by
  have hb := b.isLt
  rw [sub8, BitVec.toNat_sub]
  omega

theorem xor8_toNat (a b : Byte) : (xor8 a b).toNat = a.toNat ^^^ b.toNat := BitVec.toNat_xor a b

/-- `255 - a` is the bitwise complement (R10). -/
theorem not8_eq_xor8 (a : Byte) : not8 a = xor8 a 0xFF#8 :=
  (BitVec.allOnes_sub_eq_not a).trans BitVec.xor_allOnes.symm

theorem sub8_add8 (a b : Byte) : sub8 (add8 a b) b = a := BitVec.add_sub_cancel a b

theorem add8_sub8 (a b : Byte) : add8 (sub8 a b) b = a := BitVec.sub_add_cancel a b

theorem xor8_xor8 (a b : Byte) : xor8 (xor8 a b) b = a := by
  rw [xor8, xor8, BitVec.xor_assoc, BitVec.xor_self, BitVec.xor_zero]

theorem not8_not8 (a : Byte) : not8 (not8 a) = a := by
  rw [not8_eq_xor8, not8_eq_xor8, xor8_xor8]

/-- Settles O5: each operation on numbers from `BitVec`'s arithmetic modulo 2^8, the corner values by evaluation. -/
theorem byteOperationsWrap : Obligations.ByteOperationsWrap := by
  refine ⟨fun a b => ⟨add8_toNat a b, sub8_toNat a b, xor8_toNat a b, Machine.not8_toNat a, not8_eq_xor8 a⟩,
    fun a b => ⟨sub8_add8 a b, add8_sub8 a b, xor8_xor8 a b, not8_not8 a⟩,
    fun a => ⟨BitVec.add_zero a, BitVec.sub_zero a, BitVec.xor_zero⟩, ?_⟩
  decide

end Sys2Proof

namespace Sys2Proof.Machine

/-- Stepping on and then back returns the index (R12). -/
theorem cdec_cinc {d i : Nat} (hi : i < d) : cdec (cinc i d) d = i := by
  rw [cinc, cdec_mod (by omega), Nat.mod_eq_of_lt hi]

/-- Subtracting what was added returns the index (R12); the sum wraps at most once. -/
theorem msub_madd {d i j : Nat} (hi : i < d) (hj : j < d) : msub (madd i j d) j d = i := by
  unfold msub madd
  by_cases hw : i + j < d
  · rw [Nat.mod_eq_of_lt hw, show i + j + d - j = i + d by omega, Nat.add_mod_right, Nat.mod_eq_of_lt hi]
  · have e : (i + j) % d = i + j - d := by rw [Nat.mod_eq_sub_mod (by omega), Nat.mod_eq_of_lt (by omega)]
    rw [e, show i + j - d + d - j = i by omega, Nat.mod_eq_of_lt hi]

/-- Settles O6: the closed forms are the definitions; the inverse laws wrap at most once. -/
theorem indexOperationsWrap : Obligations.IndexOperationsWrap := by
  intro d i hd hi
  refine ⟨rfl, rfl, cdec_cinc hi, by omega, ?_, fun j hj => ⟨rfl, rfl, msub_madd hi hj, by omega, by omega, ?_⟩⟩
  · rintro rfl
    obtain rfl : i = 0 := by omega
    exact ⟨rfl, rfl⟩
  · rintro rfl
    exact ⟨Nat.mod_one _, Nat.mod_one _⟩

end Sys2Proof.Machine
end

section
/-! O10: the invariant of spec/10_state.md R42, one lemma per shared operation of the engine, then per turn. -/

namespace Sys2Proof.Machine

/-! ### What the invariant says of the idle engine -/

theorem Invariant.phase_idle {s : State} (h : Invariant s) (hb : s.busy = false) : s.phase = .idle :=
  Decidable.not_not.1 fun hp => Bool.false_ne_true (hb.symm.trans (h.busyPhase.2 hp))

theorem Invariant.progv_idle {s : State} (h : Invariant s) (hb : s.busy = false) : s.progv = false := by
  simpa [h.phase_idle hb] using h.progvPhase

theorem Invariant.busy_of_phase {s : State} (h : Invariant s) {p : Phase} (hp : s.phase = p) (hi : p ≠ .idle) :
    s.busy = true := h.busyPhase.2 (hp ▸ hi)

/-! ### The records outside the engine -/

theorem invariant_schedule {s : State} (h : Invariant s) (l : List Turn) : Invariant { s with schedule := l } :=
  { h with }

theorem invariant_logRead {s : State} (h : Invariant s) (a : Place) (v : Nat) : Invariant (logRead a v s) :=
  { h with }

/-- R235: an observation is made only while no command runs. -/
theorem invariant_noteStatusRead {s : State} (h : Invariant s) (n : Nat) : Invariant (noteStatusRead n s) := by
  rcases noteStatusRead_cases n s with e | ⟨_, hb, e⟩ <;> rw [e]
  · exact h
  · exact { h with unseen := fun hb' => by simp [hb] at hb' }

/-! ### Host writes to the lengths and the memories -/

theorem invariant_writeKlen {s : State} (h : Invariant s) (hb : s.busy = false) {v : Nat}
    (hv : s.params.fitsIndex v = true) : Invariant { s with klen := v } :=
  { h with
    klenFits := hv
    keyNonEmpty := fun hb' => by simp [hb] at hb'
    lengths := fun hb' => by simp [hb] at hb' }

theorem invariant_writeBlen {s : State} (h : Invariant s) (hb : s.busy = false) {v : Nat}
    (hv : s.params.fitsIndex v = true) : Invariant { s with blen := v } :=
  { h with
    blenFits := hv
    lengths := fun hb' => by simp [hb] at hb' }

theorem invariant_writeKey {s : State} (h : Invariant s) {a : Nat} (ha : s.params.kmax.hasOffset a = true) (v : Byte) :
    Invariant { s with key := s.key.set a v } :=
  { h with
    keyCanonical := Memory.set_wf h.keyCanonical a v
    keyInside := Memory.set_inside h.keyInside ha v }

theorem invariant_writeBuf {s : State} (h : Invariant s) {a : Nat} (ha : s.params.nmax.hasOffset a = true) (v : Byte) :
    Invariant { s with buf := s.buf.set a v } :=
  { h with
    bufCanonical := Memory.set_wf h.bufCanonical a v
    bufInside := Memory.set_inside h.bufInside ha v }

/-! ### Judging a command word (R170) -/

/-- A rejection leaves ERR alone set, with its cause. -/
theorem invariant_reject {s : State} (h : Invariant s) (hb : s.busy = false) {e : ErrCode} (he : e ≠ .noError) :
    Invariant (raiseError e (clearSticky s)) :=
  { h with
    busyNotDone := by simp
    busyNotErr := by simp [hb]
    doneNotErr := by simp
    errHasCode := by simp [he] }

/-- An acceptance leaves BUSY alone set, in KDF with no round done. -/
theorem invariant_accept {s : State} (h : Invariant s) (hb : s.busy = false) (hk : 1 ≤ s.klen)
    (hl : lengthsFit s = true) (d : Dir) : Invariant (accept d (clearSticky s)) :=
  { h with
    busyPhase := by simp
    progvPhase := by simp [h.progv_idle hb]
    busyNotDone := by simp
    busyNotErr := by simp
    doneNotErr := by simp
    errHasCode := by simp
    keyNonEmpty := fun _ => hk
    lengths := fun _ => hl
    noRoundYet := fun _ => rfl
    inRound := by simp
    eventPending := by simp
    unseen := fun _ => rfl }

theorem invariant_acceptCommand {s : State} (h : Invariant s) (hb : s.busy = false) (d : Dir) :
    Invariant (acceptCommand d s) := by
  rcases acceptCommand_cases d s with ⟨_, e⟩ | ⟨_, _, e⟩ | ⟨hk, hl, e⟩ <;> rw [e]
  · exact invariant_reject h hb (by decide)
  · exact invariant_reject h hb (by decide)
  · exact invariant_accept h hb hk hl d

theorem invariant_writeCommand {s t : State} (h : Invariant s) (hb : s.busy = false) {w : Byte}
    (ht : writeCommand w s = .next t) : Invariant t := by
  rcases writeCommand_next ht with rfl | ⟨d, _, rfl⟩
  · exact invariant_reject h hb (by decide)
  · exact invariant_acceptCommand h hb d

/-! ### Rounds, events, completion (R174 to R178) -/

/-- R30: the round value of a round that is under way is below the total. -/
theorem roundValue_lt (d : Dir) {rc n : Byte} (hn : n.toNat < rc.toNat) : (roundValue d rc n).toNat < rc.toNat := by
  cases d with
  | enc => exact hn
  | dec =>
    show (rc - 1#8 - n).toNat < rc.toNat
    bv_omega

/-- A round's two stages are no other phase. -/
theorem Phase.of_stage {p : Phase} (hp : p = .sub ∨ p = .prm) : p ≠ .idle ∧ p ≠ .kdf ∧ p ≠ .rpt := by
  rcases hp with rfl | rfl <;> decide

theorem firstPhase_sub_or_prm (d : Dir) : firstPhase d = .sub ∨ firstPhase d = .prm := by
  cases d
  · exact .inl rfl
  · exact .inr rfl

/-- A running command starts the round of which `n < RC` rounds went before. -/
theorem invariant_startRound {s : State} (h : Invariant s) (hb : s.busy = true) (hrc : 128 ≤ s.rc.toNat) {n : Byte}
    (hn : n.toNat < s.rc.toNat) : Invariant (startRound { s with progv := false, sRounds := n }) := by
  obtain ⟨hidle, hkdf, hrpt⟩ := Phase.of_stage (firstPhase_sub_or_prm s.dir)
  exact { h with
    busyPhase := iff_of_true hb hidle
    progvPhase := iff_of_false Bool.false_ne_true hrpt
    noRoundYet := fun e => absurd e hkdf
    inRound := fun _ => ⟨hrc, hn, rfl⟩
    eventPending := fun e => absurd e hrpt }

/-- A round goes on from one stage to the other. -/
theorem invariant_nextStage {s : State} (h : Invariant s) {p : Phase} (hs : s.phase = .sub ∨ s.phase = .prm)
    (hp : p = .sub ∨ p = .prm) : Invariant { s with phase := p } := by
  obtain ⟨hsIdle, _, hsRpt⟩ := Phase.of_stage hs
  obtain ⟨hidle, hkdf, hrpt⟩ := Phase.of_stage hp
  exact { h with
    busyPhase := iff_of_true (h.busyPhase.2 hsIdle) hidle
    progvPhase := iff_of_false (mt h.progvPhase.1 hsRpt) hrpt
    noRoundYet := fun e => absurd e hkdf
    inRound := fun _ => h.inRound (hs.imp_right .inl)
    eventPending := fun e => absurd e hrpt }

/-- The round's last stage issues its event, whose index is below its total. -/
theorem invariant_emit {s : State} (h : Invariant s) (hs : s.phase = .sub ∨ s.phase = .prm) : Invariant (emit s) := by
  have hround := h.inRound (hs.imp_right .inl)
  have ⟨hrc, hlt, hr⟩ := hround
  exact { h with
    busyPhase := iff_of_true (h.busyPhase.2 (Phase.of_stage hs).1) (by simp)
    progvPhase := by simp
    noRoundYet := by simp
    inRound := fun _ => hround
    eventPending := by simp
    events := by
      intro e he
      rcases List.mem_append.1 he with he | he
      · exact h.events e he
      · obtain rfl := List.mem_singleton.1 he
        exact ⟨hrc, hr ▸ roundValue_lt s.dir hlt⟩ }

/-- The last acknowledgement completes the command: DONE alone is set. -/
theorem invariant_complete {s : State} (h : Invariant s) (hb : s.busy = true) :
    Invariant (complete { s with progv := false }) :=
  { h with
    busyPhase := by simp
    progvPhase := by simp
    busyNotDone := by simp
    busyNotErr := by simp
    doneNotErr := fun hde => h.busyNotErr ⟨hb, hde.2⟩
    keyNonEmpty := by simp
    lengths := by simp
    noRoundYet := by simp
    inRound := by simp
    eventPending := by simp
    unseen := by simp }

theorem invariant_acknowledge {s : State} (h : Invariant s) : Invariant (acknowledge s) := by
  rcases acknowledge_cases s with ⟨_, e⟩ | ⟨hv, hlt, e⟩ | ⟨hv, _, e⟩ <;> rw [e]
  · exact h
  · have hp := h.progvPhase.1 hv
    have hn : (s.sRounds + 1#8).toNat < s.rc.toNat := by bv_omega
    exact invariant_startRound h (h.busy_of_phase hp (by decide)) (h.inRound (.inr (.inr hp))).1 hn
  · exact invariant_complete h (h.busy_of_phase (h.progvPhase.1 hv) (by decide))

/-! ### The engine's turn -/

/-- The end of a unit operation, before R174's transition: RCD runs in KDF, where no round is under way, and the other
four keep RC. -/
theorem invariant_unitRun {s t : State} (h : Invariant s) (f : UnitFrame s t) (hrc : 128 ≤ t.rc.toNat)
    (hkeep : s.phase ≠ .kdf → t.rc = s.rc) : Invariant t where
  params := by rw [f.params]; exact h.params
  keyCanonical := by rw [f.key]; exact h.keyCanonical
  bufCanonical := f.bufCanonical
  keyInside := by rw [f.key, f.params]; exact h.keyInside
  bufInside := f.bufInside
  klenFits := by rw [f.params, f.klen]; exact h.klenFits
  blenFits := by rw [f.params, f.blen]; exact h.blenFits
  busyPhase := by rw [f.busy, f.phase]; exact h.busyPhase
  progvPhase := by rw [f.progv, f.phase]; exact h.progvPhase
  busyNotDone := by rw [f.busy, f.done]; exact h.busyNotDone
  busyNotErr := by rw [f.busy, f.err]; exact h.busyNotErr
  doneNotErr := by rw [f.done, f.err]; exact h.doneNotErr
  errHasCode := by rw [f.err, f.errcode]; exact h.errHasCode
  keyNonEmpty := by rw [f.busy, f.klen]; exact h.keyNonEmpty
  lengths := by rw [lengthsFit, f.busy, f.params, f.klen, f.blen]; exact h.lengths
  roundCount := .inr hrc
  noRoundYet := by rw [f.phase, f.sRounds]; exact h.noRoundYet
  inRound := by
    rw [f.phase]
    intro hp
    rw [hkeep (by rintro hk; simp [hk] at hp), f.sRounds, f.r, f.dir]
    exact h.inRound hp
  eventPending := by
    rw [f.phase]
    intro hp
    rw [hkeep (by simp [hp]), f.prog, f.r, f.ptrace]
    exact h.eventPending hp
  events := by rw [f.ptrace]; exact h.events
  unseen := by rw [f.busy, f.idleSeen]; exact h.unseen
  indexRegisters := f.indexRegisters

/-- The transition of R174 when a unit operation is done; RCD has left a legal RoundCount. -/
theorem invariant_unitDone {s : State} (h : Invariant s) (hrc : s.phase = .kdf → 128 ≤ s.rc.toNat) :
    Invariant (unitDone s) := by
  cases hp : s.phase with
  | idle => simpa [unitDone, hp] using h
  | rpt => simpa [unitDone, hp] using h
  | kdf =>
    have hv : s.progv = false := by simpa [hp] using h.progvPhase
    have hself : { s with progv := false, sRounds := s.sRounds } = s := by rw [← hv]
    have hn : s.sRounds.toNat < s.rc.toNat := by
      have := hrc hp
      simp [h.noRoundYet hp]
      omega
    have := invariant_startRound h (h.busy_of_phase hp (by decide)) (hrc hp) hn
    rw [unitDone_kdf hp]
    rwa [hself] at this
  | sub =>
    cases hd : s.dir with
    | enc => rw [unitDone_sub_enc hp hd]; exact invariant_nextStage h (.inl hp) (.inr rfl)
    | dec => rw [unitDone_sub_dec hp hd]; exact invariant_emit h (.inl hp)
  | prm =>
    cases hd : s.dir with
    | enc => rw [unitDone_prm_enc hp hd]; exact invariant_emit h (.inr hp)
    | dec => rw [unitDone_prm_dec hp hd]; exact invariant_nextStage h (.inr hp) (.inl rfl)

/-- Only in KDF does the sequencer issue RCD. -/
theorem unitOf_rcd_iff (p : Phase) (d : Dir) : unitOf p d = some .rcd ↔ p = .kdf := by
  cases p <;> cases d <;> simp [unitOf]

theorem invariant_engineTurn {s t : State} (h : Invariant s) (ht : engineTurn s = .next t) : Invariant t := by
  rcases engineTurn_cases h with ⟨_, e⟩ | ⟨i, u, hi, _, _, e, hf, hrc, hkeep⟩ <;> cases e.symm.trans ht
  · exact h
  · have hu : s.phase ≠ .kdf → u.rc = s.rc := fun hp =>
      hkeep (by rintro rfl; exact hp ((unitOf_rcd_iff _ _).1 hi))
    exact invariant_unitDone (invariant_unitRun h hf hrc hu) fun _ => hrc

/-! ### The host's turn and the reset input -/

theorem invariant_writeRegister {s t : State} (h : Invariant s) {n v : Nat} (ht : writeRegister n v s = .next t) :
    Invariant t := by
  rcases writeRegister_next ht with ⟨_, hb, _, hw⟩ | ⟨_, hb, _, hv, rfl⟩ | ⟨_, hb, _, hv, rfl⟩ | ⟨_, rfl⟩
  · exact invariant_writeCommand h hb hw
  · exact invariant_writeKlen h hb hv
  · exact invariant_writeBlen h hb hv
  · exact invariant_acknowledge h

theorem invariant_hostMove {s t : State} (h : Invariant s) {a : HostMove} (ht : hostMove a s = .next t) :
    Invariant t := by
  cases a with
  | wr n v => exact invariant_writeRegister h ht
  | rd n =>
    obtain ⟨v, _, rfl⟩ := readRegisterMove_next ht
    exact invariant_noteStatusRead (invariant_logRead h _ v) n
  | kw a v =>
    obtain ⟨ha, _, _, rfl⟩ := memoryMove_next ht
    exact invariant_writeKey h ha v
  | kr a =>
    obtain ⟨_, _, _, rfl⟩ := memoryMove_next ht
    exact invariant_logRead h _ _
  | bw a v =>
    obtain ⟨ha, _, _, rfl⟩ := memoryMove_next ht
    exact invariant_writeBuf h ha v
  | br a =>
    obtain ⟨_, _, _, rfl⟩ := memoryMove_next ht
    exact invariant_logRead h _ _

theorem fitsIndex_zero (c : Params) : c.fitsIndex 0 = true := by
  unfold Params.fitsIndex
  split
  · rfl
  · exact decide_eq_true (Nat.two_pow_pos _)

/-- R41: the reset values are a legal state for all legal parameters. -/
theorem invariant_resetValues {c : Params} (hc : c.wf = true) : Invariant { State.reset with params := c } where
  params := hc
  keyCanonical := reset_key_wf
  bufCanonical := reset_buf_wf
  keyInside := fun _ hm => by cases hm
  bufInside := fun _ hm => by cases hm
  klenFits := fitsIndex_zero c
  blenFits := fitsIndex_zero c
  busyPhase := by simp [State.reset]
  progvPhase := by simp [State.reset]
  busyNotDone := by simp [State.reset]
  busyNotErr := by simp [State.reset]
  doneNotErr := by simp [State.reset]
  errHasCode := by simp [State.reset]
  keyNonEmpty := by simp [State.reset]
  lengths := by simp [State.reset]
  roundCount := .inl rfl
  noRoundYet := fun _ => rfl
  inRound := by simp [State.reset]
  eventPending := by simp [State.reset]
  events := fun _ hm => by cases hm
  unseen := by simp [State.reset]
  indexRegisters := by simp [State.reset, fitsIndex_zero]

/-- R230: whatever went before, the reset input leaves a legal state for the same parameters. -/
theorem invariant_resetInput {s : State} (hp : s.params.wf = true) : Invariant (resetInput s) :=
  { invariant_resetValues hp with }

/-! ### Every turn -/

theorem invariant_takeTurn {s t : State} (h : Invariant s) {a : Turn} (ht : takeTurn a s = .next t) :
    Invariant t := by
  cases a with
  | engine => exact invariant_engineTurn h ht
  | host m => exact invariant_hostMove h ht
  | reset => cases ht; exact invariant_resetInput h.params

/-- Settles O10: by the turn at the head of the schedule, each shared operation of the engine keeping the invariant. -/
theorem everyStepKeepsSafety : Obligations.EveryStepKeepsSafety := by
  intro s t h ht
  cases hs : s.schedule with
  | nil => exact invariant_engineTurn h (step_nil hs ▸ ht)
  | cons a rest => exact invariant_takeTurn (invariant_schedule h rest) (step_cons hs ▸ ht)

end Sys2Proof.Machine
end

section
/-! Reset and the host port: the reset state (O7, O9), the reset input (O8), STATUS and the register file (O44 to O46),
what the host may do (O43), and the write to ACK (O32). -/

namespace Sys2Proof.Machine

/-! ### Reset -/

theorem statusWord_reset : statusWord State.reset = 0#8 := by decide

/-- Settles O7: every value is R41's by evaluation, and with KLEN = 0 the first command is rejected (R201). -/
theorem resetControlState : Obligations.ResetControlState := by
  refine ⟨statusWord_reset, rfl, rfl, rfl, rfl, rfl, rfl, rfl, rfl, ?_⟩
  rintro i (rfl | rfl) <;> rfl

/-- What the reset input answers is fixed by what lies outside the engine. -/
theorem resetInput_congr {s t : State} (hp : t.params = s.params) (hs : t.schedule = s.schedule)
    (hl : t.readLog = s.readLog) (he : t.epoch = s.epoch) : resetInput t = resetInput s := by
  simp only [resetInput, hp, hs, hl, he]

theorem step_reset {s : State} {rest : List Turn} (h : s.schedule = .reset :: rest) :
    step s = .next (resetInput { s with schedule := rest }) := step_cons h

/-- Settles O8: the step is the reset input, which writes R41's values and reads only what lies outside the engine. -/
theorem resetInputClearsEverything : Obligations.ResetInputClearsEverything := by
  intro s rest h
  refine ⟨_, step_reset h, statusWord_reset, rfl, rfl, rfl, rfl, rfl, rfl, rfl, rfl, rfl, rfl, rfl,
    fun s2 hs hp hl he => ?_⟩
  rw [step_reset (hs.trans h)]
  exact congrArg _ (resetInput_congr hp rfl hl he)

/-- Settles O9: the reset values are legal for all legal parameters, and unbounded ones are legal. -/
theorem safeAtReset : Obligations.SafeAtReset := invariant_resetValues (c := Params.unbounded) rfl

/-! ### STATUS -/

theorem dir_bit_iff (d : Dir) : d.bit = true ↔ d = .dec := by cases d <;> decide

/-- The five low bits of STATUS, each flag at its place (R25). -/
theorem statusWord_flags (s : State) :
    (statusWord s).getLsbD 0 = s.busy ∧ (statusWord s).getLsbD 1 = s.done ∧ (statusWord s).getLsbD 2 = s.err ∧
    (statusWord s).getLsbD 3 = s.dir.bit ∧ (statusWord s).getLsbD 4 = s.progv := by
  simp only [statusWord, BitVec.getLsbD_append, BitVec.getLsbD_ofBool]
  simp

/-- ERRCODE stands above them. -/
theorem statusWord_errcode (s : State) : (statusWord s).extractLsb' 5 3 = s.errcode.code :=
  BitVec.extractLsb'_append_eq_left

/-- Settles O44: the five flags bit by bit, the four codes of R200 case by case. -/
theorem statusShowsTheFlags : Obligations.StatusShowsTheFlags := by
  intro s
  obtain ⟨busy, done, err, dir, progv⟩ := statusWord_flags s
  refine ⟨busy, done, err, by rw [dir, dir_bit_iff], progv, ?_⟩
  rw [statusWord_errcode]
  cases s.errcode <;> rfl

/-! ### Register reads -/

/-- A read of a register that exists, in any state (R65). -/
theorem readRegisterMove_of_some {s : State} {n v : Nat} (h : readRegister s n = some v) :
    readRegisterMove n s = .next (noteStatusRead n (logRead (.reg n) v s)) := by
  simp only [readRegisterMove, h]

/-- The model's record of an observation, without the case distinction (log entry 10). -/
theorem noteStatusRead_eq (n : Nat) (s : State) :
    noteStatusRead n s = { s with idleSeen := s.idleSeen || (decide (n = 1) && !s.busy) } := by
  unfold noteStatusRead
  split
  next h => simp [h]
  next h =>
    have : (decide (n = 1) && !s.busy) = false := by simpa using h
    simp [this]

/-- Settles O45: the eight registers one by one, then the model's two records. -/
theorem registerReadsReturnTheRegisters : Obligations.RegisterReadsReturnTheRegisters := by
  intro s n v h
  have value : readRegister s n = some v := by
    rcases h with ⟨rfl, rfl⟩ | ⟨rfl, rfl⟩ | ⟨rfl, rfl⟩ | ⟨rfl, rfl⟩ | ⟨rfl, rfl⟩ | ⟨rfl, rfl⟩ | ⟨rfl, rfl⟩ | ⟨rfl, rfl⟩ <;>
      rfl
  show readRegisterMove n s = _
  rw [readRegisterMove_of_some value, noteStatusRead_eq]
  rfl

theorem readRegister_exists {n : Nat} (hn : n ≤ 7) (s : State) : ∃ v, readRegister s n = some v := by
  match n, hn with
  | 0, _ | 1, _ | 2, _ | 3, _ | 4, _ | 5, _ | 6, _ | 7, _ => exact ⟨_, rfl⟩

theorem readRegister_none {n : Nat} (hn : ¬ n ≤ 7) (s : State) : readRegister s n = none := by
  match n, hn with
  | 0, h | 1, h | 2, h | 3, h | 4, h | 5, h | 6, h | 7, h => exact absurd (by decide) h
  | _ + 8, _ => rfl

/-- R23, U6: a register read answers exactly when the register exists. -/
theorem readRegisterMove_answers (s : State) (n : Nat) :
    (registerExists n = true → ∃ t, readRegisterMove n s = .next t) ∧
    (registerExists n = false → ∃ e, readRegisterMove n s = .refused e) := by
  simp only [registerExists, decide_eq_true_eq, decide_eq_false_iff_not]
  constructor <;> intro hn
  · obtain ⟨v, hv⟩ := readRegister_exists hn s
    exact ⟨_, readRegisterMove_of_some hv⟩
  · exact ⟨.noSuchRegister, by simp only [readRegisterMove, readRegister_none hn]⟩

/-! ### Register writes -/

/-- A register write past the checks of R23. -/
theorem writeRegister_of_wellFormed {s : State} {n v : Nat} (h : (HostMove.wr n v).wellFormed s.params = true) :
    writeRegister n v s =
      if n = 0 then whenFree .commandWhileBusy s (writeCommand (BitVec.ofNat 8 v) s)
      else if n = 2 then whenFree .lengthWriteWhileBusy s (.next { s with klen := v })
      else if n = 3 then whenFree .lengthWriteWhileBusy s (.next { s with blen := v })
      else .next (acknowledge s) := by
  simp only [HostMove.wellFormed, Bool.and_eq_true] at h
  obtain ⟨⟨he, hw⟩, hv⟩ := h
  simp [writeRegister, he, hw, hv]

/-- A register write that fails one of the checks of R23 is refused. -/
theorem writeRegister_of_not_wellFormed {s : State} {n v : Nat}
    (h : (HostMove.wr n v).wellFormed s.params = false) : ∃ e, writeRegister n v s = .refused e := by
  unfold writeRegister
  split
  · exact ⟨_, rfl⟩
  · split
    · exact ⟨_, rfl⟩
    · split
      · exact ⟨_, rfl⟩
      · simp_all [HostMove.wellFormed]

/-- Settles O46: a length that fits `IW` bits passes the checks, and the host owns the engine. -/
theorem lengthRegistersReadBack : Obligations.LengthRegistersReadBack := by
  intro s v hb hi hv
  refine ⟨?_, rfl, ?_, rfl⟩
  · exact (writeRegister_of_wellFormed (n := 2) hv).trans (whenFree_free hb hi)
  · exact (writeRegister_of_wellFormed (n := 3) hv).trans (whenFree_free hb hi)

/-- R177, R236: ACK may be written with any 8-bit value at any time. -/
theorem hostMove_ack (s : State) {v : Nat} (hv : v < 256) : hostMove (.wr 7 v) s = .next (acknowledge s) :=
  writeRegister_of_wellFormed (n := 7) (decide_eq_true hv)

/-! ### What the host may do -/

/-- The host owns the engine: no command runs, and the last one has been seen to end (R235). -/
def hostOwns (s : State) : Bool := !s.busy && s.idleSeen

theorem hostOwns_iff {s : State} : hostOwns s = true ↔ s.busy = false ∧ s.idleSeen = true := by
  simp [hostOwns]

theorem whenFree_of_owns {e : Refusal} {s : State} {k : Result} (h : hostOwns s = true) : whenFree e s k = k :=
  whenFree_free (hostOwns_iff.1 h).1 (hostOwns_iff.1 h).2

theorem whenFree_of_not_owns {e : Refusal} {s : State} {k : Result} (h : hostOwns s = false) :
    ∃ r, whenFree e s k = .refused r := by
  unfold whenFree
  split
  · exact ⟨_, rfl⟩
  · split
    · simp_all [hostOwns]
    · exact ⟨_, rfl⟩

/-- R60, U1, U6: a memory access answers exactly when its offset exists and the host owns the engine. -/
theorem memoryMove_answers (x : Bool) (s t : State) :
    ((x && hostOwns s) = true → ∃ u, memoryMove x s t = .next u) ∧
    ((x && hostOwns s) = false → ∃ e, memoryMove x s t = .refused e) := by
  cases x with
  | false => exact ⟨fun h => by simp at h, fun _ => ⟨_, rfl⟩⟩
  | true =>
    rw [Bool.true_and]
    exact ⟨fun h => ⟨t, whenFree_of_owns h⟩, whenFree_of_not_owns⟩

/-- Only the host's own operations decode from a command word (R94). -/
theorem decodeCommand_issuer {w : Byte} {i : Instr} (h : decodeCommand w = .ok i) : i.issuer = .host := by
  unfold decodeCommand at h
  split at h
  · cases h
  · split at h
    · cases h
    · split at h
      · cases h
        exact of_decide_eq_true ‹_›
      · cases h

/-- A host command in a state that is not busy is judged (R170). -/
theorem exec_of_host_issuer {i : Instr} (hi : i.issuer = .host) {s : State} (hb : s.busy = false) :
    ∃ d, exec i s = .next (acceptCommand d s) := by
  cases i with
  | enc => exact ⟨.enc, by simp [exec, execEnc, hb]⟩
  | dec => exact ⟨.dec, by simp [exec, execDec, hb]⟩
  | rcd | subf | subi | permf | permi => cases hi

/-- A CMD write answers for every word (R170, R205). -/
theorem writeCommand_answers (w : Byte) {s : State} (hb : s.busy = false) : ∃ t, writeCommand w s = .next t := by
  unfold writeCommand
  split
  · rename_i i hi
    obtain ⟨d, hd⟩ := exec_of_host_issuer (decodeCommand_issuer hi) hb
    exact ⟨_, hd⟩
  · exact ⟨_, rfl⟩

/-- R235, R236: a well-formed register write answers exactly when it is to ACK or the host owns the engine. -/
theorem writeRegister_answers {s : State} {n v : Nat} (hw : (HostMove.wr n v).wellFormed s.params = true) :
    ((n == 7 || hostOwns s) = true → ∃ t, writeRegister n v s = .next t) ∧
    ((n == 7 || hostOwns s) = false → ∃ e, writeRegister n v s = .refused e) := by
  have register : n = 0 ∨ n = 2 ∨ n = 3 ∨ n = 7 := by
    simp only [HostMove.wellFormed, registerWritable, Bool.and_eq_true, Bool.or_eq_true, beq_iff_eq] at hw
    omega
  rw [writeRegister_of_wellFormed hw]
  rcases register with rfl | rfl | rfl | rfl
  · refine ⟨fun h => ?_, whenFree_of_not_owns⟩
    obtain ⟨t, ht⟩ := writeCommand_answers (BitVec.ofNat 8 v) (hostOwns_iff.1 h).1
    exact ⟨t, (whenFree_of_owns h).trans ht⟩
  · exact ⟨fun h => ⟨_, whenFree_of_owns h⟩, whenFree_of_not_owns⟩
  · exact ⟨fun h => ⟨_, whenFree_of_owns h⟩, whenFree_of_not_owns⟩
  · exact ⟨fun _ => ⟨_, rfl⟩, fun h => by simp at h⟩

/-- Settles O43: by the kind of action; a register write first by its form, then by who owns the engine. -/
theorem hostActsExactlyWhereItMay : Obligations.HostActsExactlyWhereItMay := by
  intro s a
  cases a with
  | wr n v =>
    cases hw : (HostMove.wr n v).wellFormed s.params with
    | false => exact ⟨fun h => by simp [hostMay, hw] at h, fun _ => writeRegister_of_not_wellFormed hw⟩
    | true =>
      have may : hostMay s (.wr n v) = (n == 7 || hostOwns s) := by rw [hostMay, hw]; rfl
      rw [may]
      exact writeRegister_answers hw
  | rd n =>
    have may : hostMay s (.rd n) = registerExists n := Bool.and_true _
    rw [may]
    exact readRegisterMove_answers s n
  | kw a v => exact memoryMove_answers _ s _
  | kr a => exact memoryMove_answers _ s _
  | bw a v => exact memoryMove_answers _ s _
  | br a => exact memoryMove_answers _ s _

/-! ### The write to ACK -/

/-- The round value with which a command of `rc` rounds ends (R173, R178). -/
def lastRoundValue (d : Dir) (rc : Byte) : Byte :=
  match d with
  | .enc => rc - 1#8
  | .dec => 0#8

theorem roundValue_last {d : Dir} {rc n : Byte} (h : n.toNat + 1 = rc.toNat) :
    roundValue d rc n = lastRoundValue d rc := by
  cases d with
  | enc => show n = rc - 1#8; bv_omega
  | dec => show rc - 1#8 - n = 0#8; bv_omega

/-- Settles O32: by the outcomes of the acknowledgement; the invariant says what R and PROG hold while the event
waits. -/
theorem acknowledgementEndsTheRound : Obligations.AcknowledgementEndsTheRound := by
  intro s v hv
  rw [hostMove_ack s hv]
  refine ⟨fun h0 => ?_, fun h hp hlt => ?_, fun h hp hlast => ?_⟩
  · rcases acknowledge_cases s with ⟨_, e⟩ | ⟨h1, _⟩ | ⟨h1, _⟩
    · rw [e]
    · simp [h0] at h1
    · simp [h0] at h1
  · have pending := h.progvPhase.2 hp
    rcases acknowledge_cases s with ⟨h0, _⟩ | ⟨_, _, e⟩ | ⟨_, hle, _⟩
    · simp [pending] at h0
    · rw [e]
      cases hd : s.dir <;> simp [startRound, firstPhase, roundValue]
    · omega
  · have pending := h.progvPhase.2 hp
    obtain ⟨hrc, _, hr⟩ := h.inRound (.inr (.inr hp))
    rcases acknowledge_cases s with ⟨h0, _⟩ | ⟨_, hlt, _⟩ | ⟨_, _, e⟩
    · simp [pending] at h0
    · omega
    · refine ⟨congrArg _ e, ?_, (h.eventPending hp).1⟩
      exact hr.trans ((roundValue_last (by omega)).trans (by cases s.dir <;> rfl))

end Sys2Proof.Machine
end

section
/-! What an operation can write (O36), the bytes each stage leaves, and what PERMI reads of the working registers
(O25). -/

namespace Sys2Proof.Spec

/-! ### Bytes at or above N -/

theorem substitute_above {f : Byte → Byte → Byte → Byte → Byte} {key : Nat → Byte} {k n : Nat} {r c : Byte}
    {buf : Nat → Byte} {a : Nat} (ha : n ≤ a) : substitute f key k n r c buf a = buf a :=
  if_neg (Nat.not_lt.2 ha)

theorem exchange_of_ne {α : Type} {f : Nat → α} {i j a : Nat} (hi : a ≠ i) (hj : a ≠ j) : exchange f i j a = f a := by
  rw [exchange, if_neg hi, if_neg hj]

/-- A chain of swaps below a bound moves nothing at or above it. -/
theorem walk_above {α : Type} {c : Nat → Nat} {a t : Nat} (hc : ∀ i, i ≤ t → c i < a) (f : Nat → α) :
    walk c t f a = f a := by
  induction t with
  | zero => rfl
  | succ t ih =>
    rw [walk, exchange_of_ne (Nat.ne_of_gt (hc (t + 1) (by omega))) (Nat.ne_of_gt (hc t (by omega))),
      ih fun i hi => hc i (by omega)]

/-- The backward chain undoes the forward one, so it moves nothing there either. -/
theorem unwalk_above {α : Type} {c : Nat → Nat} {a t : Nat} (hc : ∀ i, i ≤ t → c i < a) (f : Nat → α) :
    unwalk c t f a = f a := by
  rw [← walk_above hc (unwalk c t f), walk_unwalk]

theorem walk_cursor_above {α : Type} {key : Nat → Byte} {k n a : Nat} (ha : n ≤ a) (f : Nat → α) :
    walk (cursor key k n) n f a = f a := by
  cases n with
  | zero => rfl
  | succ n => exact walk_above (fun i _ => Nat.lt_of_lt_of_le (cursor_lt (by omega) i) ha) f

theorem unwalk_cursor_above {α : Type} {key : Nat → Byte} {k n a : Nat} (ha : n ≤ a) (f : Nat → α) :
    unwalk (cursor key k n) n f a = f a := by
  cases n with
  | zero => rfl
  | succ n => exact unwalk_above (fun i _ => Nat.lt_of_lt_of_le (cursor_lt (by omega) i) ha) f

theorem substitute_zero (f : Byte → Byte → Byte → Byte → Byte) (key : Nat → Byte) (k : Nat) (r c : Byte)
    (buf : Nat → Byte) : substitute f key k 0 r c buf = buf :=
  funext fun a => substitute_above (Nat.zero_le a)

end Sys2Proof.Spec

namespace Sys2Proof.Machine

open Sys2Proof.Spec

/-! ### The bytes a stage leaves, an empty buffer included -/

theorem stage_subst_bytes {f : Byte → Byte → Byte → Byte → Byte} {s t : State} (h : stage (substStage f) s = .next t) :
    bufByte t = substitute f (keyByte s) s.klen s.blen s.r s.rc (bufByte s) := by
  rcases stage_next h with ⟨hn, rfl⟩ | ⟨_, hk, _, rfl⟩
  · rw [hn, substitute_zero]
  · exact funext (substAfter_buf f hk (Nat.le_refl _))

theorem exec_subf_bytes {s t : State} (h : exec .subf s = .next t) :
    bufByte t = substitute subf (keyByte s) s.klen s.blen s.r s.rc (bufByte s) := stage_subst_bytes h

theorem exec_subi_bytes {s t : State} (h : exec .subi s = .next t) :
    bufByte t = substitute subi (keyByte s) s.klen s.blen s.r s.rc (bufByte s) := stage_subst_bytes h

theorem exec_permf_bytes {s t : State} (h : exec .permf s = .next t) :
    bufByte t = walk (cursor (keyByte s) s.klen s.blen) s.blen (bufByte s) := by
  rcases stage_next h with ⟨hn, rfl⟩ | ⟨_, _, _, rfl⟩
  · rw [hn]; rfl
  · exact funext (permfAfter_buf s s.blen)

theorem exec_permi_bytes {s t : State} (h : exec .permi s = .next t) :
    bufByte t = unwalk (cursor (keyByte s) s.klen s.blen) s.blen (bufByte s) := by
  rcases stage_next h with ⟨hn, rfl⟩ | ⟨_, hk, _, rfl⟩
  · rw [hn]; rfl
  · have e := permiAfter_buf hk (Nat.le_refl s.blen)
    rwa [Nat.sub_self] at e

/-! ### What an operation can write -/

theorem execRcd_next {s t : State} (h : exec .rcd s = .next t) :
    t = { s with acc := rcdAcc (keyByte s) s.klen, rc := rcdFinal (rcdAcc (keyByte s) s.klen) } := by
  simp only [exec, execRcd] at h
  split at h
  · cases h; rfl
  · cases h

/-- A unit operation writes BUF and the value registers of R28 and R33 to R36, nothing else (R175). -/
theorem exec_unit_writes {i : Instr} (hi : i.issuer = .sequencer) {s t : State} (h : exec i s = .next t) :
    t = { s with
      buf := t.buf, rc := t.rc, acc := t.acc, b := t.b, kb := t.kb, p := t.p, skc := t.skc, t := t.t, pkc := t.pkc
      pbc := t.pbc, pprev := t.pprev, q := t.q, m := t.m, i := t.i, sum := t.sum } := by
  cases i with
  | enc | dec => cases hi
  | rcd => rw [execRcd_next h]
  | subf | subi | permf | permi => rcases stage_next h with ⟨_, rfl⟩ | ⟨_, _, _, rfl⟩ <;> rfl

/-- Only RCD writes RC (R28). -/
theorem exec_keeps_rc {i : Instr} (hi : i.issuer = .sequencer) (hr : i ≠ .rcd) {s t : State}
    (h : exec i s = .next t) : t.rc = s.rc := by
  cases i with
  | enc | dec => cases hi
  | rcd => exact absurd rfl hr
  | subf | subi | permf | permi => rcases stage_next h with ⟨_, rfl⟩ | ⟨_, _, _, rfl⟩ <;> rfl

/-- A command that answers was judged (R170). -/
theorem exec_host_next {i : Instr} (hi : i.issuer = .host) {s t : State} (h : exec i s = .next t) :
    ∃ d, t = acceptCommand d s := by
  cases hb : s.busy with
  | false =>
    obtain ⟨d, hd⟩ := exec_of_host_issuer hi hb
    exact ⟨d, by cases hd.symm.trans h; rfl⟩
  | true =>
    cases i with
    | enc | dec => simp [exec, execEnc, execDec, hb] at h
    | rcd | subf | subi | permf | permi => cases hi

/-- Judging a command writes the flags and the sequencer's own registers, no value and no memory (R170). -/
theorem acceptCommand_writes (d : Dir) (s : State) :
    acceptCommand d s = { s with
      busy := (acceptCommand d s).busy, done := (acceptCommand d s).done, err := (acceptCommand d s).err
      errcode := (acceptCommand d s).errcode, dir := (acceptCommand d s).dir, phase := (acceptCommand d s).phase
      sRounds := (acceptCommand d s).sRounds, idleSeen := (acceptCommand d s).idleSeen } := by
  rcases acceptCommand_cases d s with ⟨_, e⟩ | ⟨_, _, e⟩ | ⟨_, _, e⟩ <;> rw [e] <;> rfl

/-- No operation writes KEY, the lengths, R, an event or a record outside the engine. -/
theorem exec_writes {i : Instr} {s t : State} (h : exec i s = .next t) :
    t = { s with
      buf := t.buf, rc := t.rc, acc := t.acc, b := t.b, kb := t.kb, p := t.p, skc := t.skc, t := t.t, pkc := t.pkc
      pbc := t.pbc, pprev := t.pprev, q := t.q, m := t.m, i := t.i, sum := t.sum
      busy := t.busy, done := t.done, err := t.err, errcode := t.errcode, dir := t.dir, phase := t.phase
      sRounds := t.sRounds, idleSeen := t.idleSeen } := by
  cases hi : i.issuer with
  | sequencer => rw [exec_unit_writes hi h]
  | host =>
    obtain ⟨d, rfl⟩ := exec_host_next hi h
    rw [acceptCommand_writes]

theorem exec_host_bytes {i : Instr} (hi : i.issuer = .host) {s t : State} (h : exec i s = .next t) :
    bufByte t = bufByte s ∧ t.rc = s.rc := by
  obtain ⟨d, rfl⟩ := exec_host_next hi h
  rw [acceptCommand_writes]
  exact ⟨rfl, rfl⟩

theorem exec_rcd_bytes {s t : State} (h : exec .rcd s = .next t) : bufByte t = bufByte s := by
  rw [execRcd_next h]
  rfl

/-- R22: no operation changes a byte of BUF at or above N. -/
theorem exec_bytes_above {i : Instr} {s t : State} (h : exec i s = .next t) {a : Nat} (ha : s.blen ≤ a) :
    bufByte t a = bufByte s a := by
  cases i with
  | enc | dec => rw [(exec_host_bytes rfl h).1]
  | rcd => rw [exec_rcd_bytes h]
  | subf => rw [exec_subf_bytes h, substitute_above ha]
  | subi => rw [exec_subi_bytes h, substitute_above ha]
  | permf => rw [exec_permf_bytes h, walk_cursor_above ha]
  | permi => rw [exec_permi_bytes h, unwalk_cursor_above ha]

/-- Settles O36: each field is read off the form of the next state; the bytes at or above N are the stages' results
there. -/
theorem operationsWriteOnlyTheirOwnState : Obligations.OperationsWriteOnlyTheirOwnState := by
  intro i s t h
  refine ⟨?_, fun a ha => exec_bytes_above h ha, fun hi => ?_, ?_, fun hi => ?_⟩
  · rw [exec_writes h]
    exact ⟨rfl, rfl, rfl, rfl, rfl, rfl, rfl, rfl, rfl, rfl, rfl⟩
  · have rc : i ≠ .rcd → t.rc = s.rc := fun hr => exec_keeps_rc hi hr h
    rw [exec_unit_writes hi h]
    exact ⟨rfl, rfl, rfl, rfl, rfl, rfl, rfl, rfl, rc⟩
  · rintro rfl a
    rw [exec_rcd_bytes h]
  · obtain ⟨bytes, rc⟩ := exec_host_bytes hi h
    exact ⟨fun a => by rw [bytes], rc⟩

/-! ### What PERMI reads of the working registers -/

/-- The inverse walk's cursors and buffer depend on the cursors and the buffer it starts from only. -/
theorem permiBody_loop_congr (s : State) {x y : PermRegs} (hk : x.pkc = y.pkc) (hb : x.pbc = y.pbc)
    (hm : x.buf = y.buf) (n : Nat) :
    (loopN (permiBody s) n x).pkc = (loopN (permiBody s) n y).pkc ∧
    (loopN (permiBody s) n x).pbc = (loopN (permiBody s) n y).pbc ∧
    (loopN (permiBody s) n x).buf = (loopN (permiBody s) n y).buf := by
  induction n with
  | zero => exact ⟨hk, hb, hm⟩
  | succ n ih =>
    obtain ⟨ihk, ihb, ihm⟩ := ih
    simp only [loopN_succ, permiBody, swap, ihk, ihb, ihm, and_self]

/-- Settles O25: the reconstruction overwrites the cursors the walk starts from, and the walk reads no other of these
registers. -/
theorem permiIgnoresForwardCursors : Obligations.PermiIgnoresForwardCursors := by
  intro s vt vpkc vpbc vpprev vq vm vi vsum vb vkb t u ht hu
  rcases stage_next ht with ⟨hn, rfl⟩ | ⟨hn, _, _, rfl⟩ <;> rcases stage_next hu with ⟨hn', rfl⟩ | ⟨hn', _, _, rfl⟩
  · rfl
  · exact absurd hn (Nat.one_le_iff_ne_zero.1 hn')
  · exact absurd hn' (Nat.one_le_iff_ne_zero.1 hn)
  · obtain ⟨_, _, buf⟩ := permiBody_loop_congr s (x := permiInit (reconstruct { s with
      t := vt, pkc := vpkc, pbc := vpbc, pprev := vpprev, q := vq, m := vm, i := vi, sum := vsum, b := vb, kb := vkb }))
      (y := permiInit (reconstruct s)) rfl rfl rfl s.blen
    exact buf

end Sys2Proof.Machine
end

section
/-! O48: a running command is always at one point of its function. `CommandRun d s t` says which point the state `t` of
a command of direction `d` started in `s` is at: the bytes of BUF and the events are those that its phase and its number
of completed rounds tell. Every engine's turn, register read and ACK write keeps it. -/

namespace Sys2Proof.Spec

open Sys2Proof.Machine (Dir)

/-- The round value of the `j`-th round of `c` (R173). -/
def roundIndex (d : Dir) (c j : Nat) : Nat :=
  match d with
  | .enc => j
  | .dec => c - 1 - j

/-- The buffer between the two stages of a round (R171, R172). -/
def midRound (d : Dir) (key : Nat → Byte) (k n : Nat) (c r : Byte) (buf : Nat → Byte) : Nat → Byte :=
  match d with
  | .enc => substitute subf key k n r c buf
  | .dec => unwalk (cursor key k n) n buf

/-- A whole round from its middle. -/
def endRound (d : Dir) (key : Nat → Byte) (k n : Nat) (c r : Byte) (buf : Nat → Byte) : Nat → Byte :=
  match d with
  | .enc => walk (cursor key k n) n buf
  | .dec => substitute subi key k n r c buf

theorem rounds_succ (d : Dir) (key : Nat → Byte) (k n c : Nat) (buf : Nat → Byte) (j : Nat) :
    rounds d key k n c buf (j + 1) =
      endRound d key k n (BitVec.ofNat 8 c) (BitVec.ofNat 8 (roundIndex d c j))
        (midRound d key k n (BitVec.ofNat 8 c) (BitVec.ofNat 8 (roundIndex d c j)) (rounds d key k n c buf j)) := by
  cases d <;> rfl

theorem midRound_above (d : Dir) (key : Nat → Byte) (k : Nat) {n : Nat} (c r : Byte) (buf : Nat → Byte) {a : Nat}
    (ha : n ≤ a) : midRound d key k n c r buf a = buf a := by
  cases d
  · exact substitute_above ha
  · exact unwalk_cursor_above ha buf

theorem endRound_above (d : Dir) (key : Nat → Byte) (k : Nat) {n : Nat} (c r : Byte) (buf : Nat → Byte) {a : Nat}
    (ha : n ≤ a) : endRound d key k n c r buf a = buf a := by
  cases d
  · exact walk_cursor_above ha buf
  · exact substitute_above ha

/-- No round changes a byte at or above N. -/
theorem rounds_above (d : Dir) (key : Nat → Byte) (k : Nat) {n : Nat} (c : Nat) (buf : Nat → Byte) (j : Nat) {a : Nat}
    (ha : n ≤ a) : rounds d key k n c buf j a = buf a := by
  induction j with
  | zero => rfl
  | succ j ih => rw [rounds_succ, endRound_above _ _ _ _ _ _ ha, midRound_above _ _ _ _ _ _ ha, ih]

theorem progressEvents_eq (d : Dir) (c : Nat) :
    progressEvents d c = (List.range c).map fun j => (BitVec.ofNat 8 (roundIndex d c j), BitVec.ofNat 8 c) := by
  cases d <;> rfl

theorem progressEvents_length (d : Dir) (c : Nat) : (progressEvents d c).length = c := by
  rw [progressEvents_eq, List.length_map, List.length_range]

theorem progressEvents_take_succ (d : Dir) {c j : Nat} (hj : j < c) :
    (progressEvents d c).take (j + 1) =
      (progressEvents d c).take j ++ [(BitVec.ofNat 8 (roundIndex d c j), BitVec.ofNat 8 c)] := by
  rw [List.take_succ_eq_append_getElem (by rwa [progressEvents_length])]
  simp [progressEvents_eq]

end Sys2Proof.Spec

namespace Sys2Proof.Machine

open Sys2Proof.Spec

/-! ### Any list of turns -/

/-- A property that does not look at the turns to come, and that every allowed turn keeps without touching them, holds
after any run of allowed turns. -/
theorem run_turns {P : State → Prop} {ok : Turn → Prop} (records : ∀ t l, P t → P { t with schedule := l })
    (turn : ∀ t a, P t → ok a → ∃ u, takeTurn a t = .next u ∧ u.schedule = t.schedule ∧ P u)
    (turns : List Turn) (hok : ∀ a ∈ turns, ok a) {t : State} (ht : t.schedule = turns) (h : P t) :
    ∃ u, Host.Core.run Sys2Proof.core turns.length t = .next u ∧ P u := by
  induction turns generalizing t with
  | nil => exact ⟨t, run_zero t, h⟩
  | cons a rest ih =>
    obtain ⟨ha, hrest⟩ := List.forall_mem_cons.1 hok
    obtain ⟨u, hu, hs, hP⟩ := turn _ a (records t rest h) ha
    rw [List.length_cons, run_succ _ ((step_cons ht).trans hu)]
    exact ih hrest hs hP

/-! ### The sequencer's transition, field by field -/

/-- The phase after a finished unit operation (R174). -/
def nextPhase : Phase → Dir → Phase
  | .kdf, d => firstPhase d
  | .sub, .enc => .prm
  | .prm, .enc => .rpt
  | .prm, .dec => .sub
  | .sub, .dec => .rpt
  | .idle, _ => .idle
  | .rpt, _ => .rpt

/-- A phase that issues a unit operation is left by it, never for IDLE, and for RPT only from a round's last stage. -/
theorem nextPhase_of_unitOf {p : Phase} {d : Dir} {i : Instr} (h : unitOf p d = some i) :
    p ≠ .rpt ∧ p ≠ .idle ∧ nextPhase p d ≠ .idle ∧ (nextPhase p d = .rpt → p = .sub ∨ p = .prm) := by
  cases p with
  | idle | rpt => cases h
  | kdf | sub | prm => cases d <;> decide

/-- The transition writes the sequencer's registers and the event only. -/
theorem unitDone_writes (s : State) :
    unitDone s = { s with
      phase := (unitDone s).phase, r := (unitDone s).r, prog := (unitDone s).prog, progv := (unitDone s).progv
      ptrace := (unitDone s).ptrace } := by
  unfold unitDone
  split <;> rfl

@[simp] theorem unitDone_key (s : State) : (unitDone s).key = s.key := by rw [unitDone_writes]
@[simp] theorem unitDone_klen (s : State) : (unitDone s).klen = s.klen := by rw [unitDone_writes]
@[simp] theorem unitDone_blen (s : State) : (unitDone s).blen = s.blen := by rw [unitDone_writes]
@[simp] theorem unitDone_epoch (s : State) : (unitDone s).epoch = s.epoch := by rw [unitDone_writes]
@[simp] theorem unitDone_dir (s : State) : (unitDone s).dir = s.dir := by rw [unitDone_writes]
@[simp] theorem unitDone_err (s : State) : (unitDone s).err = s.err := by rw [unitDone_writes]
@[simp] theorem unitDone_rc (s : State) : (unitDone s).rc = s.rc := by rw [unitDone_writes]
@[simp] theorem unitDone_sRounds (s : State) : (unitDone s).sRounds = s.sRounds := by rw [unitDone_writes]
@[simp] theorem unitDone_schedule (s : State) : (unitDone s).schedule = s.schedule := by rw [unitDone_writes]
@[simp] theorem unitDone_phase (s : State) : (unitDone s).phase = nextPhase s.phase s.dir := by
  unfold unitDone
  split <;> simp_all [nextPhase]

theorem unitDone_bytes (s : State) : bufByte (unitDone s) = bufByte s := by rw [unitDone_writes]; rfl

/-- The transition that ends a round issues the round's event (R176). -/
theorem unitDone_ptrace_of_rpt {s : State} (hs : s.phase = .sub ∨ s.phase = .prm)
    (hn : nextPhase s.phase s.dir = .rpt) : (unitDone s).ptrace = s.ptrace ++ [(s.r, s.rc)] := by
  rcases hs with hp | hp <;> cases hd : s.dir <;> rw [hp, hd] at hn
  · cases hn
  · rw [unitDone_sub_dec hp hd, emit_ptrace]
  · rw [unitDone_prm_enc hp hd, emit_ptrace]
  · cases hn

theorem unitDone_ptrace_of_not_rpt {s : State} (hn : nextPhase s.phase s.dir ≠ .rpt) :
    (unitDone s).ptrace = s.ptrace := by
  cases hp : s.phase with
  | idle => simp [unitDone, hp]
  | rpt => simp [hp, nextPhase] at hn
  | kdf => rw [unitDone_kdf hp, startRound_ptrace]
  | sub =>
    cases hd : s.dir with
    | enc => rw [unitDone_sub_enc hp hd]
    | dec => simp [hp, hd, nextPhase] at hn
  | prm =>
    cases hd : s.dir with
    | enc => simp [hp, hd, nextPhase] at hn
    | dec => rw [unitDone_prm_dec hp hd]

/-! ### The point a command is at -/

/-- The RoundCount of the command started in `s`. -/
def totalRounds (s : State) : Nat := roundCount (keyByte s) s.klen

/-- BUF after the first `j` rounds. -/
def bytesAfter (d : Dir) (s : State) (j : Nat) : Nat → Byte :=
  rounds d (keyByte s) s.klen s.blen (totalRounds s) (bufByte s) j

/-- BUF in the middle of the round after the first `j`. -/
def bytesMid (d : Dir) (s : State) (j : Nat) : Nat → Byte :=
  midRound d (keyByte s) s.klen s.blen (BitVec.ofNat 8 (totalRounds s))
    (BitVec.ofNat 8 (roundIndex d (totalRounds s) j)) (bytesAfter d s j)

/-- What BUF holds in a phase, when `S = j`: the acknowledgement of a round counts it, so in RPT, and in IDLE at the
end, one round more is done. -/
def bytesAt (d : Dir) (s : State) (p : Phase) (j : Nat) : Nat → Byte :=
  match p, d with
  | .kdf, _ => bytesAfter d s j
  | .sub, .enc => bytesAfter d s j
  | .prm, .dec => bytesAfter d s j
  | .prm, .enc => bytesMid d s j
  | .sub, .dec => bytesMid d s j
  | .rpt, _ => bytesAfter d s (j + 1)
  | .idle, _ => bytesAfter d s (j + 1)

/-- How many events have been issued in a phase, when `S = j`. -/
def eventsAt (p : Phase) (j : Nat) : Nat := if p = .rpt ∨ p = .idle then j + 1 else j

/-- `t` is a state of the command of direction `d` that was accepted in `s`. -/
structure CommandRun (d : Dir) (s t : State) : Prop where
  inv : Invariant t
  key : t.key = s.key
  klen : t.klen = s.klen
  blen : t.blen = s.blen
  epoch : t.epoch = s.epoch
  dir : t.dir = d
  err : t.err = false
  rc : t.phase ≠ .kdf → t.rc.toNat = totalRounds s
  bytes : bufByte t = bytesAt d s t.phase t.sRounds.toNat
  events : t.ptrace = s.ptrace ++ (progressEvents d (totalRounds s)).take (eventsAt t.phase t.sRounds.toNat)
  ended : t.phase = .idle → t.done = true ∧ t.sRounds.toNat + 1 = totalRounds s ∧
    t.r = roundValue d t.rc t.sRounds ∧ t.prog = progWord t.r t.rc

theorem bytesAt_above (d : Dir) (s : State) (p : Phase) (j : Nat) {a : Nat} (ha : s.blen ≤ a) :
    bytesAt d s p j a = bufByte s a := by
  have after : ∀ i, bytesAfter d s i a = bufByte s a := fun i => rounds_above _ _ _ _ _ _ ha
  have mid : bytesMid d s j a = bufByte s a := (midRound_above _ _ _ _ _ _ ha).trans (after j)
  cases p with
  | kdf | rpt | idle => exact after _
  | sub =>
    cases d with
    | enc => exact after j
    | dec => exact mid
  | prm =>
    cases d with
    | enc => exact mid
    | dec => exact after j

/-! ### The turns of a command -/

theorem acceptCommand_of_fits {d : Dir} {s : State} (hk : 1 ≤ s.klen) (hl : lengthsFit s = true) :
    acceptCommand d s = accept d (clearSticky s) := by
  rcases acceptCommand_cases d s with ⟨h0, _⟩ | ⟨_, hl', _⟩ | ⟨_, _, e⟩
  · omega
  · simp [hl] at hl'
  · exact e

theorem writeCommand_commandWord (d : Dir) {s : State} (hb : s.busy = false) :
    writeCommand (BitVec.ofNat 8 (commandWord d)) s = .next (acceptCommand d s) := by
  cases d
  · have word : decodeCommand (BitVec.ofNat 8 (commandWord .enc)) = .ok .enc := rfl
    simp [writeCommand, word, exec, execEnc, hb]
  · have word : decodeCommand (BitVec.ofNat 8 (commandWord .dec)) = .ok .dec := rfl
    simp [writeCommand, word, exec, execDec, hb]

/-- The CMD write of a ready state is accepted (R170). -/
theorem hostMove_command {d : Dir} {s : State} (h : Ready s) :
    hostMove (.wr 0 (commandWord d)) s = .next (accept d (clearSticky s)) := by
  have wellFormed : (HostMove.wr 0 (commandWord d)).wellFormed s.params = true := by cases d <;> rfl
  show writeRegister 0 (commandWord d) s = _
  rw [writeRegister_of_wellFormed wellFormed, if_pos rfl, whenFree_free h.notBusy h.idleSeen,
    writeCommand_commandWord d h.notBusy, acceptCommand_of_fits h.keyNonEmpty h.lengths]

/-- The step that takes it, whatever turns come after. -/
theorem step_command {d : Dir} {s : State} (h : Ready s) (turns : List Turn) :
    step { s with schedule := .host (.wr 0 (commandWord d)) :: turns } =
      .next { accept d (clearSticky s) with schedule := turns } :=
  hostMove_command (d := d) (s := { s with schedule := turns }) { h with inv := invariant_schedule h.inv turns }

theorem commandRun_accept (d : Dir) {s : State} (h : Ready s) : CommandRun d s (accept d (clearSticky s)) where
  inv := invariant_accept h.inv h.notBusy h.keyNonEmpty h.lengths d
  key := rfl
  klen := rfl
  blen := rfl
  epoch := rfl
  dir := rfl
  err := rfl
  rc := fun hp => absurd rfl hp
  bytes := rfl
  events := (List.append_nil _).symm
  ended := by simp

theorem acknowledge_schedule (s : State) : (acknowledge s).schedule = s.schedule := by
  rcases acknowledge_cases s with ⟨_, e⟩ | ⟨_, _, e⟩ | ⟨_, _, e⟩ <;> rw [e] <;> rfl

namespace CommandRun

variable {d : Dir} {s t u : State}

theorem withSchedule (h : CommandRun d s t) (l : List Turn) : CommandRun d s { t with schedule := l } :=
  { h with inv := invariant_schedule h.inv l }

theorem read (h : CommandRun d s t) (n v : Nat) : CommandRun d s (noteStatusRead n (logRead (.reg n) v t)) := by
  have logged : CommandRun d s (logRead (.reg n) v t) := { h with inv := invariant_logRead h.inv _ v }
  have inv := invariant_noteStatusRead logged.inv n
  rw [noteStatusRead_eq] at inv ⊢
  exact { logged with inv := inv }

theorem acknowledge (h : CommandRun d s t) : CommandRun d s (acknowledge t) := by
  have inv := invariant_acknowledge h.inv
  rcases acknowledge_cases t with ⟨_, e⟩ | ⟨hv, hlt, e⟩ | ⟨hv, hle, e⟩ <;> rw [e] at inv ⊢
  · exact h
  · have hp := h.inv.progvPhase.1 hv
    have next : (t.sRounds + 1#8).toNat = t.sRounds.toNat + 1 := by bv_omega
    obtain ⟨notIdle, _, notRpt⟩ := Phase.of_stage (firstPhase_sub_or_prm t.dir)
    refine { h with inv := inv, rc := fun _ => h.rc (by simp [hp]), bytes := ?_, events := ?_, ended := ?_ }
    · refine h.bytes.trans ?_
      show bytesAt d s t.phase _ = bytesAt d s (firstPhase t.dir) (t.sRounds + 1#8).toNat
      rw [next, hp, h.dir]
      cases d <;> rfl
    · refine h.events.trans ?_
      show _ = s.ptrace ++ List.take (eventsAt (firstPhase t.dir) (t.sRounds + 1#8).toNat) _
      rw [next, hp]
      rw [eventsAt, eventsAt, if_pos (.inl rfl), if_neg (not_or_intro notRpt notIdle)]
    · exact fun hi => absurd hi notIdle
  · have hp := h.inv.progvPhase.1 hv
    have hrc := h.rc (by simp [hp])
    obtain ⟨_, hlt, hr⟩ := h.inv.inRound (.inr (.inr hp))
    refine { h with
      inv := inv, rc := fun _ => hrc, bytes := ?_, events := ?_
      ended := fun _ => ⟨rfl, by show t.sRounds.toNat + 1 = _; omega, h.dir ▸ hr, (h.inv.eventPending hp).1⟩ }
    · refine h.bytes.trans ?_
      rw [hp]
      rfl
    · refine h.events.trans ?_
      rw [hp]
      rfl

/-! ### The engine's turn -/

theorem keyByte_eq (h : CommandRun d s t) : keyByte t = keyByte s := by
  unfold keyByte
  rw [h.key, h.epoch]

/-- In a round, R and RC are the values of the round's event. -/
theorem roundEvent (h : CommandRun d s t) (hp : t.phase = .sub ∨ t.phase = .prm) :
    t.sRounds.toNat < totalRounds s ∧ t.rc = BitVec.ofNat 8 (totalRounds s) ∧
    t.r = BitVec.ofNat 8 (roundIndex d (totalRounds s) t.sRounds.toNat) := by
  obtain ⟨_, hlt, hr⟩ := h.inv.inRound (hp.imp_right .inl)
  rw [← h.rc (Phase.of_stage hp).2.1, hr, h.dir]
  refine ⟨hlt, by simp, ?_⟩
  cases d with
  | enc => simp [roundValue, roundIndex]
  | dec =>
    show t.rc - 1#8 - t.sRounds = BitVec.ofNat 8 (t.rc.toNat - 1 - t.sRounds.toNat)
    bv_omega

/-- What the phase's unit operation leaves in BUF is what the next phase expects (R174, R179). -/
theorem unit_bytes (h : CommandRun d s t) {i : Instr} (hi : unitOf t.phase t.dir = some i)
    (hx : exec i t = .next u) : bufByte u = bytesAt d s (nextPhase t.phase t.dir) t.sRounds.toNat := by
  have before := h.bytes
  rw [h.dir] at hi ⊢
  cases hp : t.phase with
  | idle | rpt => rw [hp] at hi; cases hi
  | kdf =>
    rw [hp] at hi before
    cases hi
    rw [exec_rcd_bytes hx, before]
    cases d <;> rfl
  | sub =>
    obtain ⟨_, hrc, hr⟩ := h.roundEvent (.inl hp)
    rw [hp] at hi before
    cases d with
    | enc => cases hi; rw [exec_subf_bytes hx, before, h.keyByte_eq, h.klen, h.blen, hr, hrc]; rfl
    | dec => cases hi; rw [exec_subi_bytes hx, before, h.keyByte_eq, h.klen, h.blen, hr, hrc]; rfl
  | prm =>
    rw [hp] at hi before
    cases d with
    | enc => cases hi; rw [exec_permf_bytes hx, before, h.keyByte_eq, h.klen, h.blen]; rfl
    | dec => cases hi; rw [exec_permi_bytes hx, before, h.keyByte_eq, h.klen, h.blen]; rfl

/-- After any unit operation RC is the RoundCount: RCD has just derived it, the others keep it. -/
theorem unit_rc (h : CommandRun d s t) {i : Instr} (hi : unitOf t.phase t.dir = some i) (hx : exec i t = .next u)
    (hkeep : i ≠ .rcd → u.rc = t.rc) : u.rc.toNat = totalRounds s := by
  by_cases hr : i = .rcd
  · subst hr
    rw [execRcd_next hx]
    show (rcdFinal (rcdAcc (keyByte t) t.klen)).toNat = _
    rw [rcdFinal_rcdAcc, h.keyByte_eq, h.klen]
    rfl
  · rw [hkeep hr]
    exact h.rc fun hp => hr (Option.some.inj (hi.symm.trans ((unitOf_rcd_iff _ _).2 hp)))

/-- The transition issues the event of a round that ends, and no other. -/
theorem unit_events (h : CommandRun d s t) (f : UnitFrame t u) {i : Instr} (hi : unitOf t.phase t.dir = some i)
    (hrc : u.rc = BitVec.ofNat 8 (totalRounds s)) :
    (unitDone u).ptrace =
      s.ptrace ++ (progressEvents d (totalRounds s)).take (eventsAt (nextPhase t.phase t.dir) t.sRounds.toNat) := by
  obtain ⟨notRpt, notIdle, nextNotIdle, ofRpt⟩ := nextPhase_of_unitOf hi
  have before := h.events
  rw [eventsAt, if_neg (not_or_intro notRpt notIdle)] at before
  by_cases hn : nextPhase t.phase t.dir = .rpt
  · have hp := ofRpt hn
    obtain ⟨hlt, _, hr⟩ := h.roundEvent hp
    rw [unitDone_ptrace_of_rpt (by rwa [f.phase]) (by rwa [f.phase, f.dir]), f.ptrace, f.r, before, hr, hrc, hn]
    rw [eventsAt, if_pos (.inl rfl), progressEvents_take_succ d hlt, List.append_assoc]
  · rw [unitDone_ptrace_of_not_rpt (by rwa [f.phase, f.dir]), f.ptrace, before, eventsAt,
      if_neg (not_or_intro hn nextNotIdle)]

theorem engine (h : CommandRun d s t) :
    ∃ u, engineTurn t = .next u ∧ u.schedule = t.schedule ∧ CommandRun d s u := by
  rcases engineTurn_cases h.inv with ⟨_, e⟩ | ⟨i, u, hi, _, hx, e, f, _, hkeep⟩
  · exact ⟨t, e, rfl, h⟩
  · have hrc := h.unit_rc hi hx hkeep
    obtain ⟨_, _, notIdle, _⟩ := nextPhase_of_unitOf hi
    refine ⟨unitDone u, e, (unitDone_schedule u).trans f.schedule, ?_⟩
    exact {
      inv := invariant_engineTurn h.inv e
      key := by rw [unitDone_key, f.key, h.key]
      klen := by rw [unitDone_klen, f.klen, h.klen]
      blen := by rw [unitDone_blen, f.blen, h.blen]
      epoch := by rw [unitDone_epoch, f.epoch, h.epoch]
      dir := by rw [unitDone_dir, f.dir, h.dir]
      err := by rw [unitDone_err, f.err, h.err]
      rc := fun _ => by rw [unitDone_rc, hrc]
      bytes := by rw [unitDone_bytes, unitDone_phase, unitDone_sRounds, f.phase, f.dir, f.sRounds, h.unit_bytes hi hx]
      events := by
        rw [unitDone_phase, unitDone_sRounds, f.phase, f.dir, f.sRounds]
        exact h.unit_events f hi (by rw [← hrc]; simp)
      ended := fun hp => by
        rw [unitDone_phase, f.phase, f.dir] at hp
        exact absurd hp notIdle }

/-- What a command's run may consist of (R65, R177, R212): engine's turns, register reads and writes of any 8-bit value
to ACK. -/
theorem turn (h : CommandRun d s t) {a : Turn}
    (ha : a = .engine ∨ (∃ n, n ≤ 7 ∧ a = .host (.rd n)) ∨ ∃ v, v < 256 ∧ a = .host (.wr 7 v)) :
    ∃ u, takeTurn a t = .next u ∧ u.schedule = t.schedule ∧ CommandRun d s u := by
  rcases ha with rfl | ⟨n, hn, rfl⟩ | ⟨v, hv, rfl⟩
  · exact h.engine
  · obtain ⟨v, value⟩ := readRegister_exists hn t
    exact ⟨_, readRegisterMove_of_some value, by rw [noteStatusRead_eq]; rfl, h.read n v⟩
  · exact ⟨_, hostMove_ack t hv, acknowledge_schedule t, h.acknowledge⟩

/-- A command that is no longer busy has done all its rounds (R178, R179). -/
theorem completed (h : CommandRun d s t) (hb : t.busy = false) :
    t.done = true ∧ bufByte t = command d (keyByte s) s.klen s.blen (bufByte s) ∧
    t.rc = BitVec.ofNat 8 (totalRounds s) ∧ t.r = lastRoundValue d t.rc ∧
    t.ptrace = s.ptrace ++ progressEvents d (totalRounds s) ∧ t.prog = t.rc ++ t.r := by
  have hp := h.inv.phase_idle hb
  have hrc := h.rc (by simp [hp])
  obtain ⟨done, last, r, prog⟩ := h.ended hp
  refine ⟨done, ?_, by rw [← hrc]; simp, r.trans (roundValue_last (by rw [last, hrc])), ?_, prog⟩
  · rw [h.bytes, hp]
    show bytesAfter d s (t.sRounds.toNat + 1) = _
    rw [last]
    rfl
  · rw [h.events, hp]
    show _ ++ List.take (t.sRounds.toNat + 1) _ = _
    rw [last, List.take_of_length_le (Nat.le_of_eq (progressEvents_length d _))]

end CommandRun

/-- Settles O48: the CMD write starts the command's run, every turn of the list keeps it, and `CommandRun` says what the
state reached holds. -/
theorem everyRunOfACommandComputesItsFunction : Obligations.EveryRunOfACommandComputesItsFunction := by
  intro d s turns ready hok
  obtain ⟨t, run, h⟩ := run_turns (P := CommandRun d s) (fun _ l h => h.withSchedule l) (fun _ _ h ha => h.turn ha)
    turns hok rfl ((commandRun_accept d ready).withSchedule turns)
  refine ⟨t, (run_succ _ (step_command ready turns)).trans run, h.key, h.klen, h.blen, h.dir, h.err,
    fun a ha => ?_, ⟨_, h.events⟩, fun hb => ?_⟩
  · rw [h.bytes, bytesAt_above d s _ _ ha]
  · obtain ⟨done, bytes, rc, r, events, prog⟩ := h.completed hb
    exact ⟨done, fun a _ => congrFun bytes a, rc, r.trans (by cases d <;> rfl), events, prog⟩

end Sys2Proof.Machine
end

section
/-! Where a unit operation stops (O19), the host's one-byte accesses to KEY and BUF (O47), and why the model's records
do not steer the engine (O37). -/

namespace Sys2Proof.Machine

/-! ### The outcomes of RCD and of a stage's guard -/

theorem execRcd_run {s : State} (h : s.params.kmax.admits s.klen = true) :
    exec .rcd s = .next { s with acc := rcdAcc (keyByte s) s.klen, rc := rcdFinal (rcdAcc (keyByte s) s.klen) } :=
  if_pos h

theorem execRcd_outside {s : State} (h : s.params.kmax.admits s.klen = false) :
    exec .rcd s = .fault .offsetOutsideMemory :=
  if_neg (Bool.eq_false_iff.1 h)

theorem stage_emptyKey (f : State → State) {s : State} (hn : 1 ≤ s.blen) (hk : s.klen = 0) :
    stage f s = .fault .emptyKeyArithmetic := by
  rw [stage, if_neg (Nat.one_le_iff_ne_zero.1 hn), if_pos hk]

theorem stage_outside (f : State → State) {s : State} (hn : 1 ≤ s.blen) (hk : 1 ≤ s.klen)
    (hl : lengthsFit s = false) : stage f s = .fault .offsetOutsideMemory := by
  rw [stage, if_neg (Nat.one_le_iff_ne_zero.1 hn), if_neg (Nat.one_le_iff_ne_zero.1 hk),
    if_neg (Bool.eq_false_iff.1 hl)]

/-- Every state is on one side of a stage's guard. -/
theorem stage_guard_cases (s : State) :
    s.blen = 0 ∨ (1 ≤ s.blen ∧ s.klen = 0) ∨ (1 ≤ s.blen ∧ 1 ≤ s.klen ∧ lengthsFit s = false) ∨
    (1 ≤ s.blen ∧ 1 ≤ s.klen ∧ lengthsFit s = true) := by
  cases lengthsFit s <;> simp <;> omega

theorem stage_fault {f : State → State} {s : State} {e : Fault} (h : stage f s = .fault e) :
    1 ≤ s.blen ∧ (s.klen = 0 ∨ lengthsFit s = false) := by
  rcases stage_guard_cases s with hn | ⟨hn, hk⟩ | ⟨hn, _, hl⟩ | ⟨hn, hk, hl⟩
  · cases (stage_empty f hn).symm.trans h
  · exact ⟨hn, .inl hk⟩
  · exact ⟨hn, .inr hl⟩
  · cases (stage_run f hn hk hl).symm.trans h

/-- The four operations over the buffer are stages: one guard for all of them (R128, R144, U3, R69). -/
theorem exec_eq_stage {i : Instr} (hi : i = .subf ∨ i = .subi ∨ i = .permf ∨ i = .permi) :
    ∃ f, ∀ s, exec i s = stage f s := by
  rcases hi with rfl | rfl | rfl | rfl <;> exact ⟨_, fun _ => rfl⟩

theorem Bound.admits_zero (c : Bound) : c.admits 0 = true := by
  cases c with
  | none => rfl
  | some m => exact decide_eq_true (Nat.zero_le m)

theorem rcdFinal_accStart : rcdFinal accStart = 255#8 := by decide

/-- Settles O19: a stage's faults are its guard's; RCD has one guard, which admits the empty key, and there its loop is
empty. -/
theorem unitOperationsStopOnlyOutsideCommands : Obligations.UnitOperationsStopOnlyOutsideCommands := by
  refine ⟨fun s i hi => ?_, fun s => ⟨execRcd_outside, fun h => ?_⟩, fun s hk => ?_⟩
  · obtain ⟨f, hf⟩ := exec_eq_stage hi
    rw [hf]
    exact ⟨stage_emptyKey f, stage_outside f, fun _ => stage_fault⟩
  · cases ha : s.params.kmax.admits s.klen with
    | false => rfl
    | true => cases (execRcd_run ha).symm.trans h
  · rw [execRcd_run (hk ▸ Bound.admits_zero _), hk, rcdAcc, rcdFinal_accStart, accStart]

/-! ### The host's one-byte accesses -/

theorem memoryMove_free {x : Bool} {s t : State} (hx : x = true) (hb : s.busy = false) (hi : s.idleSeen = true) :
    memoryMove x s t = .next t := by
  rw [memoryMove, if_pos hx, whenFree_free hb hi]

theorem keyByte_set (s : State) (a : Nat) (v : Byte) (x : Nat) :
    keyByte { s with key := s.key.set a v } x = if x = a then v else keyByte s x :=
  Memory.read_set _ s.key a v x

theorem bufByte_set (s : State) (a : Nat) (v : Byte) (x : Nat) :
    bufByte { s with buf := s.buf.set a v } x = if x = a then v else bufByte s x :=
  bufRead_set s s.buf a v x

/-- Settles O47: the offset exists and the host owns the memories, so the access is made; a written memory reads as
`Memory.read_set` says. -/
theorem hostMemoryAccesses : Obligations.HostMemoryAccesses := by
  intro s a v hb hi
  exact ⟨fun ha => ⟨⟨_, memoryMove_free ha hb hi, rfl, keyByte_set s a v⟩, memoryMove_free ha hb hi⟩,
    fun ha => ⟨⟨_, memoryMove_free ha hb hi, rfl, bufByte_set s a v⟩, memoryMove_free ha hb hi⟩⟩

/-! ### The records do not steer the engine -/

/-- `s` with other turns to come, another read log and another observation record (log entries 5, 14, 10). -/
def withRecords (turns : List Turn) (log : List HostRead) (seen : Bool) (s : State) : State :=
  { s with schedule := turns, readLog := log, idleSeen := seen }

theorem Result.map_map (f g : State → State) (o : Result) :
    Result.map f (Result.map g o) = Result.map (fun s => f (g s)) o := by
  cases o <;> rfl

theorem unitOf_issuer {p : Phase} {d : Dir} {i : Instr} (h : unitOf p d = some i) : i.issuer = .sequencer := by
  cases p <;> cases d <;> cases h <;> rfl

theorem engineTurn_of_none {s : State} (h : unitOf s.phase s.dir = none) : engineTurn s = .next s := by
  rw [engineTurn_eq, h]

theorem engineTurn_of_some {s : State} {i : Instr} (h : unitOf s.phase s.dir = some i) :
    engineTurn s = Result.map unitDone (exec i s) := by
  rw [engineTurn_eq, h]

section

variable (turns : List Turn) (log : List HostRead) (seen : Bool)

/-- A stage whose work does not look at the records does not either: its guard reads the lengths and capacities. -/
theorem stage_withRecords {f : State → State}
    (hf : ∀ s, f (withRecords turns log seen s) = withRecords turns log seen (f s)) (s : State) :
    stage f (withRecords turns log seen s) = Result.map (withRecords turns log seen) (stage f s) := by
  rcases stage_guard_cases s with hn | ⟨hn, hk⟩ | ⟨hn, hk, hl⟩ | ⟨hn, hk, hl⟩
  · rw [stage_empty f hn, stage_empty f (s := withRecords turns log seen s) hn]
    rfl
  · rw [stage_emptyKey f hn hk, stage_emptyKey f (s := withRecords turns log seen s) hn hk]
    rfl
  · rw [stage_outside f hn hk hl, stage_outside f (s := withRecords turns log seen s) hn hk hl]
    rfl
  · rw [stage_run f hn hk hl, stage_run f (s := withRecords turns log seen s) hn hk hl, hf]
    rfl

theorem substStage_withRecords (f : Byte → Byte → Byte → Byte → Byte) (s : State) :
    substStage f (withRecords turns log seen s) = withRecords turns log seen (substStage f s) := rfl

theorem permfStage_withRecords (s : State) :
    permfStage (withRecords turns log seen s) = withRecords turns log seen (permfStage s) := rfl

theorem permiStage_withRecords (s : State) :
    permiStage (withRecords turns log seen s) = withRecords turns log seen (permiStage s) := rfl

theorem execRcd_withRecords (s : State) :
    exec .rcd (withRecords turns log seen s) = Result.map (withRecords turns log seen) (exec .rcd s) := by
  cases h : s.params.kmax.admits s.klen with
  | false =>
    rw [execRcd_outside h, execRcd_outside (s := withRecords turns log seen s) h]
    rfl
  | true =>
    rw [execRcd_run h, execRcd_run (s := withRecords turns log seen s) h]
    rfl

theorem exec_unit_withRecords {i : Instr} (hi : i.issuer = .sequencer) (s : State) :
    exec i (withRecords turns log seen s) = Result.map (withRecords turns log seen) (exec i s) := by
  cases i with
  | enc | dec => cases hi
  | rcd => exact execRcd_withRecords turns log seen s
  | subf | subi => exact stage_withRecords turns log seen (substStage_withRecords turns log seen _) s
  | permf => exact stage_withRecords turns log seen (permfStage_withRecords turns log seen) s
  | permi => exact stage_withRecords turns log seen (permiStage_withRecords turns log seen) s

/-- The transition of R174 looks at phase, direction and the round registers only. -/
theorem unitDone_withRecords (s : State) :
    unitDone (withRecords turns log seen s) = withRecords turns log seen (unitDone s) := by
  cases hp : s.phase with
  | idle | rpt => simp [unitDone, withRecords, hp]
  | kdf =>
    rw [unitDone_kdf hp, unitDone_kdf (s := withRecords turns log seen s) hp]
    rfl
  | sub =>
    cases hd : s.dir with
    | enc =>
      rw [unitDone_sub_enc hp hd, unitDone_sub_enc (s := withRecords turns log seen s) hp hd]
      rfl
    | dec =>
      rw [unitDone_sub_dec hp hd, unitDone_sub_dec (s := withRecords turns log seen s) hp hd]
      rfl
  | prm =>
    cases hd : s.dir with
    | enc =>
      rw [unitDone_prm_enc hp hd, unitDone_prm_enc (s := withRecords turns log seen s) hp hd]
      rfl
    | dec =>
      rw [unitDone_prm_dec hp hd, unitDone_prm_dec (s := withRecords turns log seen s) hp hd]
      rfl

/-- The unit operation is selected by phase and direction, and it and its transition commute with a change of the
records. -/
theorem engineTurn_withRecords (s : State) :
    engineTurn (withRecords turns log seen s) = Result.map (withRecords turns log seen) (engineTurn s) := by
  cases hu : unitOf s.phase s.dir with
  | none =>
    rw [engineTurn_of_none hu, engineTurn_of_none (s := withRecords turns log seen s) hu]
    rfl
  | some i =>
    rw [engineTurn_of_some hu, engineTurn_of_some (s := withRecords turns log seen s) hu,
      exec_unit_withRecords turns log seen (unitOf_issuer hu), Result.map_map, Result.map_map]
    simp only [unitDone_withRecords]

end

/-- Settles O37: the engine's turn commutes with a change of the records, which is what `withRecords` writes out. -/
theorem hostRecordsDoNotSteerTheEngine : Obligations.HostRecordsDoNotSteerTheEngine :=
  fun s turns log seen => engineTurn_withRecords turns log seen s

end Sys2Proof.Machine
end

section
/-! Encoding and issue: the code space (O1, O2), the unit operation a step runs (O4), and what a CMD write does, cause
by cause (O29). -/

namespace Sys2Proof

/-! ### The code space (R93) -/

theorem decodeCode_encodeCode (i : Instr) : decodeCode (encodeCode i) = some i := by
  cases i <;> rfl

/-- The seven codes of R93 name their operations, and the eighth names none. -/
theorem decodeCode_eq_some_iff {c : BitVec 3} {i : Instr} : decodeCode c = some i ↔ c = encodeCode i := by
  refine ⟨fun h => ?_, fun h => h ▸ decodeCode_encodeCode i⟩
  unfold decodeCode at h
  repeat' split at h
  all_goals cases h
  all_goals assumption

/-! ### The unit-select codes (R91) -/

/-- A unit-select code names the operation it encodes, if the sequencer issues that operation (R94). -/
theorem decodeUnit_eq_ok_iff {u : BitVec 3} {i : Instr} :
    decodeUnit u = .ok i ↔ u = encodeCode i ∧ i.issuer = .sequencer := by
  constructor
  · intro h
    unfold decodeUnit at h
    split at h
    · cases h
    · rename_i hc
      split at h <;> cases h
      exact ⟨decodeCode_eq_some_iff.1 hc, of_decide_eq_true ‹_›⟩
  · rintro ⟨rfl, hi⟩
    simp [decodeUnit, decodeCode_encodeCode, Instr.wellFormed, hi]

/-! ### The command words (R90) -/

theorem zeroField_append_opField (w : Byte) : zeroField w ++ opField w = w := by
  rw [zeroField, opField, BitVec.extractLsb'_append_extractLsb'_eq_extractLsb' (by rfl)]
  exact BitVec.extractLsb'_eq_self

theorem zeroField_encode (i : Instr) : zeroField (encode i) = 0#5 := by
  cases i <;> rfl

theorem opField_encode (i : Instr) : opField (encode i) = encodeCode i := by
  cases i <;> rfl

/-- A command word names the operation it encodes, if the host issues that operation (R94, R95). -/
theorem decodeCommand_eq_ok_iff {w : Byte} {i : Instr} :
    decodeCommand w = .ok i ↔ w = encode i ∧ i.issuer = .host := by
  constructor
  · intro h
    refine ⟨?_, Machine.decodeCommand_issuer h⟩
    unfold decodeCommand at h
    split at h
    · cases h
    · rename_i hz
      split at h
      · cases h
      · rename_i hc
        split at h <;> cases h
        rw [encode, ← decodeCode_eq_some_iff.1 hc, ← Decidable.not_not.1 hz, zeroField_append_opField]
  · rintro ⟨rfl, hi⟩
    simp [decodeCommand, zeroField_encode, opField_encode, decodeCode_encodeCode, Instr.wellFormed, hi]

/-- R93: of the 256 command words two are legal. -/
theorem decodeCommand_table (w : Byte) (i : Instr) :
    decodeCommand w = .ok i ↔ (w = 0x01#8 ∧ i = .enc) ∨ (w = 0x02#8 ∧ i = .dec) := by
  rw [decodeCommand_eq_ok_iff]
  cases i <;> simp [encode, encodeCode, Instr.issuer]

/-- R93: of the eight unit-select codes five are issued. -/
theorem decodeUnit_table (u : BitVec 3) (i : Instr) :
    decodeUnit u = .ok i ↔
      (u = 0b011#3 ∧ i = .rcd) ∨ (u = 0b100#3 ∧ i = .subf) ∨ (u = 0b101#3 ∧ i = .subi) ∨
      (u = 0b110#3 ∧ i = .permf) ∨ (u = 0b111#3 ∧ i = .permi) := by
  rw [decodeUnit_eq_ok_iff]
  cases i <;> simp [encodeCode, Instr.issuer]

/-- Settles O1: a word decodes to the operation it encodes and to no other, if its issuer is the one that sends it. -/
theorem onlyTheTablesCodesDecode : Obligations.OnlyTheTablesCodesDecode :=
  ⟨decodeCommand_table, decodeUnit_table⟩

/-! ### The words of the opcode table -/

/-- A command word that decodes is read in format C. -/
theorem decodeTableWord_of_command {w : Byte} {i : Instr} (h : decodeCommand w = .ok i) :
    decodeTableWord 8 w.toNat = some i := by
  have hw : w.toNat % 2 ^ 8 = w.toNat := Nat.mod_eq_of_lt w.isLt
  simp only [decodeTableWord, tableWord, hw, w.isLt, if_true, BitVec.ofNat_toNat, BitVec.setWidth_eq, h]

/-- Settles O2. A host command's word decodes by format C; the code of a unit operation is illegal there and is read in
format U. The seven words are closed terms. -/
theorem tableWordsDecodeBack : Obligations.TableWordsDecodeBack := by
  refine ⟨fun i => ?_, rfl, rfl, rfl, rfl, rfl, rfl, rfl⟩
  cases hi : i.issuer with
  | host => exact decodeTableWord_of_command (decodeCommand_eq_ok_iff.2 ⟨rfl, hi⟩)
  | sequencer =>
    cases i with
    | enc | dec => cases hi
    | rcd | subf | subi | permf | permi => rfl

end Sys2Proof

namespace Sys2Proof.Machine

/-! ### The unit operation a step runs (R174) -/

/-- The engine's turn when the phase selects a code that decodes. -/
theorem engineTurn_of_issued {s : State} {u : BitVec 3} {i : Instr} (hu : unitSelect s.phase s.dir = some u)
    (hi : decodeUnit u = .ok i) : engineTurn s = Result.map unitDone (exec i s) := by
  simp only [engineTurn, hu, hi]

/-- Settles O4: scheduled or by default the step is the engine's turn, and taking it off the schedule leaves phase and
direction; the codes are `unitSelect`'s rows. -/
theorem stepRunsTheIssuedUnitOperation : Obligations.StepRunsTheIssuedUnitOperation := by
  refine ⟨?_, fun d => ⟨rfl, rfl, rfl⟩, rfl, rfl, rfl, rfl⟩
  rintro s s' u i (⟨hs, rfl⟩ | ⟨rest, hs, rfl⟩) hu hi
  · rw [step_nil hs, engineTurn_of_issued hu hi]
  · rw [step_cons hs]
    exact engineTurn_of_issued (s := { s with schedule := rest }) hu hi

/-! ### The judgement of a command (R170) -/

theorem acceptCommand_of_emptyKey {d : Dir} {s : State} (hk : s.klen = 0) :
    acceptCommand d s = raiseError .keyEmpty (clearSticky s) :=
  if_pos hk

theorem acceptCommand_of_tooLong {d : Dir} {s : State} (hk : 1 ≤ s.klen) (hl : lengthsFit s = false) :
    acceptCommand d s = raiseError .length (clearSticky s) := by
  rw [acceptCommand, if_neg (Nat.one_le_iff_ne_zero.1 hk), if_neg (Bool.eq_false_iff.1 hl)]

/-- R202: every word but the two of ENC and DEC is illegal. -/
theorem writeCommand_illegal {w : Byte} (h1 : w ≠ 0x01#8) (h2 : w ≠ 0x02#8) (s : State) :
    writeCommand w s = .next (raiseError .illegalCmd (clearSticky s)) := by
  unfold writeCommand
  split
  · rename_i i hi
    rcases (decodeCommand_table w i).1 hi with ⟨hw, _⟩ | ⟨hw, _⟩
    · exact absurd hw h1
    · exact absurd hw h2
  · rfl

/-- A legal word is judged as the command of its direction. -/
theorem writeCommand_legal {w : Byte} (hw : w = 0x01#8 ∨ w = 0x02#8) {s : State} (hb : s.busy = false) :
    writeCommand w s = .next (acceptCommand (if w = 0x01#8 then .enc else .dec) s) := by
  rcases hw with rfl | rfl
  · exact writeCommand_commandWord .enc hb
  · exact writeCommand_commandWord .dec hb

/-- Every word is a value CMD can take, so only the host's right to write CMD is in question (R23, R235). -/
theorem hostMove_writeCommand (w : Byte) (s : State) :
    hostMove (.wr 0 w.toNat) s = whenFree .commandWhileBusy s (writeCommand w s) := by
  have wellFormed : (HostMove.wr 0 w.toNat).wellFormed s.params = true := decide_eq_true w.isLt
  rw [hostMove, writeRegister_of_wellFormed wellFormed, if_pos rfl, BitVec.ofNat_toNat, BitVec.setWidth_eq]

theorem step_writeCommand {s : State} {w : Byte} {rest : List Turn} (h : s.schedule = .host (.wr 0 w.toNat) :: rest) :
    step s = whenFree .commandWhileBusy { s with schedule := rest } (writeCommand w { s with schedule := rest }) :=
  (step_cons h).trans (hostMove_writeCommand w _)

/-- Settles O29: the write reaches the decoder unless a command runs; then come R170's checks in their order. -/
theorem commandWriteIsJudgedInOrder : Obligations.CommandWriteIsJudgedInOrder := by
  intro s w rest h
  rw [step_writeCommand h]
  refine ⟨fun hb => if_pos hb, fun hb hi => ?_⟩
  rw [whenFree_free (s := { s with schedule := rest }) hb hi]
  refine ⟨fun ⟨h1, h2⟩ => writeCommand_illegal h1 h2 _, fun hw hk => ?_, fun hw hk hl => ?_, fun hw hk hl => ?_⟩
  · exact Eq.trans (writeCommand_legal hw hb) (congrArg _ (acceptCommand_of_emptyKey hk))
  · exact Eq.trans (writeCommand_legal hw hb) (congrArg _ (acceptCommand_of_tooLong hk hl))
  · exact Eq.trans (writeCommand_legal hw hb) (congrArg _ (acceptCommand_of_fits hk hl))

end Sys2Proof.Machine
end

section
/-! RCD (spec/40_round_count.md): its closed form (O12), the range of RoundCount and of the round value (O13), and that
RoundCount is a function of the key (O14). ACC is a function of length plus byte sum modulo 256, and each of the
statements about two keys compares that number. -/

namespace Sys2Proof.Spec

/-- An injection of the indices below `n` into themselves only reorders them: a missed one would be one too many. -/
theorem map_range_perm {f : Nat → Nat} {n : Nat} (hf : ∀ i, i < n → f i < n)
    (inj : ∀ i j, i < n → j < n → f i = f j → i = j) : ((List.range n).map f).Perm (List.range n) := by
  have nodup : ((List.range n).map f).Nodup :=
    List.pairwise_map.2 (List.nodup_range.imp_of_mem fun hi hj hne e =>
      hne (inj _ _ (List.mem_range.1 hi) (List.mem_range.1 hj) e))
  have maps : (List.range n).map f ⊆ List.range n := fun a ha => by
    obtain ⟨i, hi, rfl⟩ := List.mem_map.1 ha
    exact List.mem_range.2 (hf i (List.mem_range.1 hi))
  refine (List.perm_ext_iff_of_nodup nodup List.nodup_range).2 fun a => ⟨fun ha => maps ha, fun ha => ?_⟩
  refine Decidable.byContradiction fun missed => ?_
  have tooMany := (List.nodup_cons.2 ⟨missed, nodup⟩).length_le_of_subset (List.cons_subset.2 ⟨ha, maps⟩)
  simp only [List.length_cons, List.length_map, List.length_range] at tooMany
  omega

theorem sumTo_eq_sum_range (g : Nat → Nat) (n : Nat) : sumTo g n = ((List.range n).map g).sum := by
  induction n with
  | zero => rfl
  | succ n ih => simp [sumTo_succ, List.range_succ, ih]

/-- The terms of a sum may be taken in any order. -/
theorem sumTo_comp_of_injective_below {f : Nat → Nat} {n : Nat} (hf : ∀ i, i < n → f i < n)
    (inj : ∀ i j, i < n → j < n → f i = f j → i = j) (g : Nat → Nat) : sumTo (fun i => g (f i)) n = sumTo g n := by
  rw [sumTo_eq_sum_range, sumTo_eq_sum_range, ← ((map_range_perm hf inj).map g).sum_nat, List.map_map]
  rfl

/-- R113's other form of the accumulator, `(255 K - sigma) mod 256`: 255 is -1 modulo 256. -/
theorem accumulator_eq_int_mod (key : Nat → Byte) (k : Nat) :
    (accumulator key k : Int) = (255 * (k : Int) - (sumTo (fun i => (key i).toNat) k : Int)) % 256 := by
  unfold accumulator
  omega

end Sys2Proof.Spec

namespace Sys2Proof.Machine

open Sys2Proof.Spec

/-! ### The accumulator -/

theorem rcdAcc_eq_ofNat (key : Nat → Byte) (k : Nat) : rcdAcc key k = BitVec.ofNat 8 (accumulator key k) := by
  rw [← rcdAcc_toNat, BitVec.ofNat_toNat, BitVec.setWidth_eq]

theorem rcdFinal_rcdAcc_eq_ofNat (key : Nat → Byte) (k : Nat) :
    rcdFinal (rcdAcc key k) = BitVec.ofNat 8 (roundCount key k) := by
  rw [← rcdFinal_rcdAcc, BitVec.ofNat_toNat, BitVec.setWidth_eq]

/-- Keys with equal length plus byte sum modulo 256 give equal accumulators (R113). -/
theorem rcdAcc_eq_of_mod_eq {key₁ key₂ : Nat → Byte} {k₁ k₂ : Nat}
    (h : (k₁ + sumTo (fun i => (key₁ i).toNat) k₁) % 256 = (k₂ + sumTo (fun i => (key₂ i).toNat) k₂) % 256) :
    rcdAcc key₁ k₁ = rcdAcc key₂ k₂ := by
  rw [rcdAcc_eq_ofNat, rcdAcc_eq_ofNat, accumulator, accumulator, h]

/-- Keys of one length with equal byte sums give equal accumulators. -/
theorem rcdAcc_eq_of_sum_eq {key₁ key₂ : Nat → Byte} {k : Nat}
    (h : sumTo (fun i => (key₁ i).toNat) k = sumTo (fun i => (key₂ i).toNat) k) : rcdAcc key₁ k = rcdAcc key₂ k :=
  rcdAcc_eq_of_mod_eq (by rw [h])

/-! ### What RCD leaves in ACC and RC -/

theorem exec_rcd_acc {s t : State} (h : exec .rcd s = .next t) : t.acc = rcdAcc (keyByte s) s.klen := by
  rw [execRcd_next h]

theorem exec_rcd_rc {s t : State} (h : exec .rcd s = .next t) : t.rc = rcdFinal t.acc := by
  rw [execRcd_next h]

/-- RC follows ACC: two runs of RCD with equal accumulators have equal RoundCounts. -/
theorem exec_rcd_rc_congr {s₁ s₂ t₁ t₂ : State} (h₁ : exec .rcd s₁ = .next t₁) (h₂ : exec .rcd s₂ = .next t₂)
    (h : rcdAcc (keyByte s₁) s₁.klen = rcdAcc (keyByte s₂) s₂.klen) : t₁.rc = t₂.rc := by
  rw [exec_rcd_rc h₁, exec_rcd_rc h₂, exec_rcd_acc h₁, exec_rcd_acc h₂, h]

/-- Settles O12: the loop's accumulator is the closed form; it looks at length plus byte sum modulo 256 only, and the
byte sum does not see the order of the bytes. -/
theorem rcdClosedForm : Obligations.RcdClosedForm := by
  refine ⟨fun s _ hs => ⟨?_, accumulator_eq_int_mod _ _⟩, fun s₁ s₂ t₁ t₂ _ _ h₁ h₂ hsum => ?_,
    fun s₁ s₂ t₁ t₂ f _ hk h₁ h₂ hf inj => ?_⟩
  · rw [execRcd_run hs, rcdFinal_rcdAcc_eq_ofNat, rcdAcc_eq_ofNat]
  · exact exec_rcd_rc_congr h₁ h₂ (rcdAcc_eq_of_mod_eq hsum)
  · refine exec_rcd_rc_congr h₁ h₂ ?_
    rw [← hk]
    refine rcdAcc_eq_of_sum_eq (Eq.symm ?_)
    calc sumTo (fun i => (keyByte s₂ i).toNat) s₁.klen
        = sumTo (fun i => (keyByte s₁ (f i)).toNat) s₁.klen := sumTo_congr fun i hi => by rw [(hf i hi).2]
      _ = sumTo (fun i => (keyByte s₁ i).toNat) s₁.klen :=
          sumTo_comp_of_injective_below (fun i hi => (hf i hi).1) inj fun i => (keyByte s₁ i).toNat

/-- Settles O13: RC is ACC or its complement, whichever is at least 128; a round value is below RC, which is a byte. -/
theorem roundCountInRange : Obligations.RoundCountInRange := by
  refine ⟨fun s t h => ?_, fun s hs hp => ?_⟩
  · rw [exec_rcd_rc h]
    refine ⟨le_rcdFinal _, Nat.le_of_lt_succ (BitVec.isLt _), fun hi => ?_, fun lo => ?_⟩
    · exact if_neg (Nat.not_lt.2 hi)
    · rw [rcdFinal_toNat, if_neg (by omega)]
  · obtain ⟨_, hlt, hr⟩ := hs.inRound hp
    have below : s.r.toNat < s.rc.toNat := hr ▸ roundValue_lt s.dir hlt
    have byte := s.rc.isLt
    omega

/-- Settles O14: the byte sum reads the key at offsets below KLEN only. -/
theorem roundCountDependsOnKeyOnly : Obligations.RoundCountDependsOnKeyOnly := by
  intro s₁ s₂ t₁ t₂ hk hkey h₁ h₂
  have acc : rcdAcc (keyByte s₁) s₁.klen = rcdAcc (keyByte s₂) s₂.klen := by
    rw [← hk]
    exact rcdAcc_eq_of_sum_eq (sumTo_congr fun i hi => by rw [hkey i hi])
  exact ⟨exec_rcd_rc_congr h₁ h₂ acc, by rw [exec_rcd_acc h₁, exec_rcd_acc h₂, acc]⟩

end Sys2Proof.Machine
end

section
/-! The substitution stages (spec/41_substitution.md): their results and frames (O15, O16), that they undo each other
(O17), and that no stage does anything to an empty buffer (O18). SUBF and SUBI are one stage with two byte transforms,
so what they do is said once, for every transform. -/

namespace Sys2Proof.Spec

/-- Two substitutions undo each other when their byte transforms do: key byte and cursor are the same (R125). -/
theorem substitute_substitute {f g : Byte → Byte → Byte → Byte → Byte}
    (undo : ∀ b kb r c, g (f b kb r c) kb r c = b) (key : Nat → Byte) (k n : Nat) (r c : Byte) (buf : Nat → Byte) :
    substitute g key k n r c (substitute f key k n r c buf) = buf := by
  funext a
  by_cases ha : a < n
  · simp [substitute, ha, undo]
  · simp [substitute, ha]

end Sys2Proof.Spec

namespace Sys2Proof.Machine

open Sys2Proof.Spec

/-! ### Result and frame -/

/-- A stage over a buffer that is not empty writes BUF, P, SKC, B and KB; the last position is `N - 1`, whose key byte
is at `1 mod K`, and one step further back stands the cursor it leaves (R126, R129). -/
theorem substStage_eq (f : Byte → Byte → Byte → Byte → Byte) {s : State} (hn : 1 ≤ s.blen) (hk : 1 ≤ s.klen) :
    substStage f s = { s with
      p := s.blen, skc := 0, b := bufByte (substStage f s) (s.blen - 1), kb := keyByte s (1 % s.klen)
      buf := (substStage f s).buf } := by
  have p : (substStage f s).p = s.blen := substAfter_p f s s.blen
  have skc : (substStage f s).skc = 0 := by
    rw [substStage_skc, substAfter_skc f hk (Nat.le_refl _), Nat.sub_self, Nat.zero_mod]
  obtain ⟨kb, b⟩ := substAfter_last f hk (Nat.le_of_eq (Nat.sub_add_cancel hn))
  rw [Nat.sub_add_cancel hn, Nat.sub_sub_self hn] at kb
  rw [Nat.sub_add_cancel hn] at b
  calc substStage f s
      = { s with
          p := (substStage f s).p, skc := (substStage f s).skc, b := (substAfter f s s.blen).b
          kb := (substAfter f s s.blen).kb, buf := (substStage f s).buf } := rfl
    _ = _ := by rw [p, skc, b, kb]; rfl

theorem stage_subst_result (f : Byte → Byte → Byte → Byte → Byte) {s : State} (hn : 1 ≤ s.blen) (hk : 1 ≤ s.klen)
    (hl : lengthsFit s = true) :
    ∃ t, stage (substStage f) s = .next t ∧
      (∀ a, bufByte t a = substitute f (keyByte s) s.klen s.blen s.r s.rc (bufByte s) a) ∧
      t = { s with
        p := s.blen, skc := 0, b := bufByte t (s.blen - 1), kb := keyByte s (1 % s.klen), buf := t.buf } :=
  have run := stage_run (substStage f) hn hk hl
  ⟨_, run, congrFun (stage_subst_bytes run), substStage_eq f hn hk⟩

/-- Settles O15: the stage with R121's transform. -/
theorem subfResult : Obligations.SubfResult := fun _ => stage_subst_result subfByte

/-- Settles O16: the stage with R123's transform. -/
theorem subiResult : Obligations.SubiResult := fun _ => stage_subst_result subiByte

/-! ### The stages undo each other (R125) -/

/-- Each step of R123 undoes the step of R121 that stands as far from the other end. -/
theorem subiByte_subfByte (b kb r c : Byte) : subiByte (subfByte b kb r c) kb r c = b := by
  simp only [subiByte, subfByte, sub8_add8, xor8_xor8, add8_sub8]

theorem subfByte_subiByte (b kb r c : Byte) : subfByte (subiByte b kb r c) kb r c = b := by
  simp only [subiByte, subfByte, add8_sub8, xor8_xor8, sub8_add8]

/-- The first stage keeps the key, the lengths, R and RC, so the second runs over the same cursors. -/
theorem stage_subst_undo {f g : Byte → Byte → Byte → Byte → Byte} (undo : ∀ b kb r c, g (f b kb r c) kb r c = b)
    {s : State} (hk : 1 ≤ s.klen) (hl : lengthsFit s = true) :
    ∃ t u, stage (substStage f) s = .next t ∧ stage (substStage g) t = .next u ∧ ∀ a, bufByte u a = bufByte s a := by
  rcases Nat.eq_zero_or_pos s.blen with hn | hn
  · exact ⟨s, s, stage_empty _ hn, stage_empty _ hn, fun _ => rfl⟩
  · have first := stage_run (substStage f) hn hk hl
    have second := stage_run (substStage g) (s := substStage f s) hn hk hl
    refine ⟨_, _, first, second, congrFun ?_⟩
    rw [stage_subst_bytes second, stage_subst_bytes first]
    exact substitute_substitute undo ..

/-- Settles O17: both orders of both the bytes and the stages. -/
theorem substitutionStagesInvert : Obligations.SubstitutionStagesInvert :=
  ⟨fun b kb r c => ⟨subiByte_subfByte b kb r c, subfByte_subiByte b kb r c⟩,
    fun _ hk hl => ⟨stage_subst_undo subiByte_subfByte hk hl, stage_subst_undo subfByte_subiByte hk hl⟩⟩

/-! ### An empty buffer -/

/-- Settles O18: the four stages have one guard, and an empty buffer answers at it. -/
theorem emptyBufferStagesDoNothing : Obligations.EmptyBufferStagesDoNothing :=
  fun _ hn => ⟨stage_empty _ hn, stage_empty _ hn, stage_empty _ hn, stage_empty _ hn⟩

end Sys2Proof.Machine
end

section
/-! The canonical run of a command, every event acknowledged at once, and the command over an empty buffer (O40). The
run goes from one round's start to the next: `RoundsDone d s j t` says that in the state `t` of the command of direction
`d` accepted in `s`, `j` rounds are done and no round is under way. -/

namespace Sys2Proof.Machine

open Sys2Proof.Spec

/-! ### The sequencer's transition and the turns of a round -/

@[simp] theorem unitDone_buf (s : State) : (unitDone s).buf = s.buf := by rw [unitDone_writes]

/-- A phase in which the sequencer issues nothing has no successor (R174). -/
theorem nextPhase_of_unitOf_none {p : Phase} {d : Dir} (h : unitOf p d = none) : nextPhase p d = p := by
  cases p with
  | idle | rpt => rfl
  | kdf | sub | prm => cases d <;> cases h

/-- After its two unit operations a round waits for its acknowledgement (R171, R172). -/
theorem nextPhase_nextPhase_firstPhase (d : Dir) : nextPhase (nextPhase (firstPhase d) d) d = .rpt := by
  cases d <;> rfl

theorem roundTurns_succ (n : Nat) :
    roundTurns (n + 1) = .engine :: .engine :: .host (.wr 7 0) :: roundTurns n := by
  simp [roundTurns, List.replicate_succ]

/-! ### An empty buffer is not written (R128, R144) -/

theorem exec_unit_buf_of_empty {i : Instr} (hi : i.issuer = .sequencer) {s t : State} (hn : s.blen = 0)
    (h : exec i s = .next t) : t.buf = s.buf := by
  cases i with
  | enc | dec => cases hi
  | rcd => rw [execRcd_next h]
  | subf | subi | permf | permi => cases (stage_empty _ hn).symm.trans h; rfl

/-! ### The turns of a command's run -/

/-- The engine's turn takes R174's transition, counts no round and leaves an empty buffer alone. -/
theorem engineTurn_advances {s t : State} (h : engineTurn s = .next t) :
    t.phase = nextPhase s.phase s.dir ∧ t.sRounds = s.sRounds ∧ (s.blen = 0 → t.buf = s.buf) := by
  cases hu : unitOf s.phase s.dir with
  | none =>
    cases (engineTurn_of_none hu).symm.trans h
    exact ⟨(nextPhase_of_unitOf_none hu).symm, rfl, fun _ => rfl⟩
  | some i =>
    obtain ⟨u, hx, rfl⟩ := Result.map_eq_next ((engineTurn_of_some hu).symm.trans h)
    have hi := unitOf_issuer hu
    have buf : s.blen = 0 → u.buf = s.buf := fun hn => exec_unit_buf_of_empty hi hn hx
    rw [unitDone_phase, unitDone_sRounds, unitDone_buf, exec_unit_writes hi hx]
    exact ⟨rfl, rfl, buf⟩

theorem acknowledge_buf (s : State) : (acknowledge s).buf = s.buf := by
  rcases acknowledge_cases s with ⟨_, e⟩ | ⟨_, _, e⟩ | ⟨_, _, e⟩ <;> rw [e] <;> rfl

/-- `j` rounds of the command are done: the next one starts, or the command has ended (R171, R172, R178). -/
structure RoundsDone (d : Dir) (s : State) (j : Nat) (t : State) : Prop where
  run : CommandRun d s t
  phase : t.phase = if j < totalRounds s then firstPhase d else .idle
  rounds : j < totalRounds s → t.sRounds.toNat = j
  /-- BUF is not written at all when N = 0 (R182) -/
  emptyBuf : s.blen = 0 → t.buf = s.buf

section
variable {d : Dir} {s t : State} {rest : List Turn} {j : Nat}

theorem CommandRun.step_engine (h : CommandRun d s t) (hs : t.schedule = .engine :: rest) :
    ∃ u, step t = .next u ∧ u.schedule = rest ∧ CommandRun d s u ∧ u.phase = nextPhase t.phase d ∧
      u.sRounds = t.sRounds ∧ (s.blen = 0 → u.buf = t.buf) := by
  obtain ⟨u, e, hrest, hu⟩ := (h.withSchedule rest).engine
  obtain ⟨phase, count, buf⟩ := engineTurn_advances e
  exact ⟨u, (step_cons hs).trans e, hrest, hu, h.dir ▸ phase, count, fun hn => buf (h.blen.trans hn)⟩

/-- The acknowledgement of a round's event counts the round (R174, R177, R178). -/
theorem CommandRun.roundsDone_acknowledge (h : CommandRun d s t) (hp : t.phase = .rpt)
    (hb : s.blen = 0 → t.buf = s.buf) : RoundsDone d s (t.sRounds.toNat + 1) (Machine.acknowledge t) := by
  have run := h.acknowledge
  have buf := (acknowledge_buf t).trans ∘ hb
  have hrc := h.rc (by simp [hp])
  have pending := h.inv.progvPhase.2 hp
  rcases acknowledge_cases t with ⟨h0, _⟩ | ⟨_, hlt, e⟩ | ⟨_, hle, e⟩
  · simp [pending] at h0
  · have next : (t.sRounds + 1#8).toNat = t.sRounds.toNat + 1 := by bv_omega
    exact ⟨run, by rw [e, if_pos (by omega), ← h.dir]; rfl, fun _ => by rw [e]; exact next, buf⟩
  · exact ⟨run, by rw [e, if_neg (by omega)]; rfl, fun hlt => absurd hlt (by omega), buf⟩

/-- The CMD write and RCD bring a ready state to the start of round 0. -/
theorem run_command_rcd (h : Ready s) (rest : List Turn) :
    ∃ u, Host.Core.run Sys2Proof.core 2
        { s with schedule := .host (.wr 0 (commandWord d)) :: .engine :: rest } = .next u ∧
      u.schedule = rest ∧ RoundsDone d s 0 u := by
  have accepted := (commandRun_accept d h).withSchedule (.engine :: rest)
  obtain ⟨u, e, hrest, run, phase, count, buf⟩ := accepted.step_engine rfl
  have first : u.phase = firstPhase d := phase
  have anyRound : 0 < totalRounds s :=
    Nat.zero_lt_of_lt (run.roundEvent (first ▸ firstPhase_sub_or_prm d)).1
  exact ⟨u, (run_succ 1 (step_command h _)).trans (run_succ 0 e), hrest, run, by rw [first, if_pos anyRound],
    fun _ => by rw [count]; rfl, buf⟩

/-- One round: two unit operations and the acknowledgement of its event. -/
theorem RoundsDone.round (h : RoundsDone d s j t) (hj : j < totalRounds s)
    (hs : t.schedule = .engine :: .engine :: .host (.wr 7 0) :: rest) :
    ∃ u, Host.Core.run Sys2Proof.core 3 t = .next u ∧ u.schedule = rest ∧ RoundsDone d s (j + 1) u := by
  obtain ⟨t₁, e₁, hs₁, run₁, phase₁, count₁, buf₁⟩ := h.run.step_engine hs
  obtain ⟨t₂, e₂, hs₂, run₂, phase₂, count₂, buf₂⟩ := run₁.step_engine hs₁
  have waits : t₂.phase = .rpt := by rw [phase₂, phase₁, h.phase, if_pos hj, nextPhase_nextPhase_firstPhase]
  have count : t₂.sRounds.toNat = j := by rw [count₂, count₁, h.rounds hj]
  have ack : step t₂ = .next (acknowledge { t₂ with schedule := rest }) :=
    (step_cons hs₂).trans (hostMove_ack _ (by decide))
  refine ⟨_, (run_succ 2 e₁).trans ((run_succ 1 e₂).trans (run_succ 0 ack)), acknowledge_schedule _, ?_⟩
  rw [← count]
  exact (run₂.withSchedule rest).roundsDone_acknowledge waits
    fun hn => ((buf₂ hn).trans (buf₁ hn)).trans (h.emptyBuf hn)

/-- All the rounds that are left, by induction on their number. -/
theorem RoundsDone.run_rounds {n : Nat} (h : RoundsDone d s j t) (hn : j + n = totalRounds s)
    (hs : t.schedule = roundTurns n ++ rest) :
    ∃ u, Host.Core.run Sys2Proof.core (3 * n) t = .next u ∧ u.schedule = rest ∧
      RoundsDone d s (totalRounds s) u := by
  induction n generalizing j t with
  | zero => exact ⟨t, run_zero t, hs, hn ▸ h⟩
  | succ n ih =>
    rw [roundTurns_succ] at hs
    obtain ⟨u, run, hs', hu⟩ := h.round (by omega) hs
    rw [show 3 * (n + 1) = 3 + 3 * n by omega, run_add _ _ run]
    exact ih hu (by omega) hs'

theorem RoundsDone.not_busy (h : RoundsDone d s (totalRounds s) t) : t.busy = false := by
  have idle : t.phase = .idle := by rw [h.phase, if_neg (Nat.lt_irrefl _)]
  exact Bool.eq_false_iff.2 fun hb => h.run.inv.busyPhase.1 hb idle

/-- The STATUS read at the end observes the completion (R178, R235). -/
theorem RoundsDone.step_readStatus (h : RoundsDone d s (totalRounds s) t) (hs : t.schedule = .host (.rd 1) :: rest) :
    ∃ u, step t = .next u ∧ u.schedule = rest ∧ RoundsDone d s (totalRounds s) u ∧ u.idleSeen = true := by
  obtain ⟨v, value⟩ := readRegister_exists (n := 1) (by decide) { t with schedule := rest }
  have e := (step_cons hs).trans (readRegisterMove_of_some value)
  have run := (h.run.withSchedule rest).read 1 v
  rw [noteStatusRead_eq] at e run
  exact ⟨_, e, rfl, { h with run := run }, by simp [h.not_busy]⟩

end

/-- A whole command of a ready state ends, with all its turns taken and its completion seen. -/
theorem runCommand_completes (d : Dir) {s : State} (h : Ready s) :
    ∃ t, runCommand d (totalRounds s) s = .next t ∧ t.schedule = [] ∧ RoundsDone d s (totalRounds s) t ∧
      t.idleSeen = true := by
  obtain ⟨t₁, e₁, hs₁, h₁⟩ := run_command_rcd (d := d) h (roundTurns (totalRounds s) ++ [.host (.rd 1)])
  obtain ⟨t₂, e₂, hs₂, h₂⟩ := h₁.run_rounds (Nat.zero_add _) hs₁
  obtain ⟨t, e, hs, ht, seen⟩ := h₂.step_readStatus hs₂
  refine ⟨t, ?_, hs, ht, seen⟩
  rw [runCommand, show 3 * totalRounds s + 3 = 2 + (3 * totalRounds s + 1) by omega]
  exact (run_add _ _ e₁).trans ((run_add _ _ e₂).trans (run_succ 0 e))

/-- Settles O40: the canonical run ends, `CommandRun` gives RC and the events, and an empty buffer was written by
none of its turns. -/
theorem emptyBufferCommandReportsItsRounds : Obligations.EmptyBufferCommandReportsItsRounds := by
  intro d s ready hn
  obtain ⟨t, e, _, h, _⟩ := runCommand_completes d ready
  obtain ⟨done, _, rc, _, events, _⟩ := h.run.completed h.not_busy
  exact ⟨t, e, h.emptyBuf hn, rc, done, events⟩

end Sys2Proof.Machine
end

section
/-! The permutation stages (spec/42_permutation.md): their results and frames (O20, O21), the reconstruction of the end
of the forward walk (O22), that they undo each other (O23), and that PERMF moves the bytes by one bijection of the
positions, given by the key and N (O24). -/

namespace Sys2Proof.Spec

/-! ### Sums -/

theorem sumTo_one (n : Nat) : sumTo (fun _ => 1) n = n := by
  induction n with
  | zero => rfl
  | succ n ih => rw [sumTo_succ, ih]

theorem sumTo_le_mul {g : Nat → Nat} {b : Nat} (hg : ∀ i, g i ≤ b) (n : Nat) : sumTo g n ≤ b * n := by
  induction n with
  | zero => exact Nat.le_refl 0
  | succ n ih =>
    rw [sumTo_succ, Nat.mul_succ]
    exact Nat.add_le_add ih (hg n)

/-! ### The bijection of the positions -/

/-- The cursor reads the key below K only. -/
theorem cursor_congr {key₁ key₂ : Nat → Byte} {k : Nat} (hk : 1 ≤ k) (h : ∀ i, i < k → key₁ i = key₂ i) (n : Nat) :
    cursor key₁ k n = cursor key₂ k n := by
  funext t
  rw [cursor, cursor, sumTo_congr fun j _ => by rw [h (j % k) (Nat.mod_lt j hk)]]

/-- Where each position's byte comes from in the forward chain; the backward chain leads back from there. -/
theorem walk_id_injective (c : Nat → Nat) (t : Nat) : Function.Injective (walk c t id) :=
  Function.LeftInverse.injective (g := unwalk c t id) fun a =>
    (walk_comp c t (unwalk c t id) a).symm.trans (congrFun (walk_unwalk c t id) a)

/-- A position below N gets its byte from below N: the positions from N on keep theirs. -/
theorem walk_cursor_id_lt {key : Nat → Byte} {k n a : Nat} (ha : a < n) : walk (cursor key k n) n id a < n := by
  refine Nat.lt_of_not_le fun above => ?_
  have fixed : walk (cursor key k n) n id a = a := walk_id_injective _ _ (walk_cursor_above above id)
  omega

/-- Contents moved by an injection of the positions below `n` into themselves are the same multiset. -/
theorem map_range_perm_of_comp {α : Type} {f : Nat → Nat} {g h : Nat → α} {n : Nat} (hf : ∀ i, i < n → f i < n)
    (inj : ∀ i j, i < n → j < n → f i = f j → i = j) (moved : ∀ i, i < n → h i = g (f i)) :
    ((List.range n).map h).Perm ((List.range n).map g) := by
  have e : (List.range n).map h = ((List.range n).map f).map g := by
    rw [List.map_map]
    exact List.map_congr_left fun i hi => moved i (List.mem_range.1 hi)
  rw [e]
  exact (map_range_perm hf inj).map g

end Sys2Proof.Spec

namespace Sys2Proof.Machine

open Sys2Proof.Spec

/-! ### Result and frame -/

/-- PERMF over a buffer that is not empty: the registers after its last step (R143). -/
theorem permfStage_eq {s : State} (hn : 1 ≤ s.blen) :
    permfStage s = { s with
      t := s.blen, pkc := s.blen % s.klen, pbc := cursorOf s s.blen, pprev := cursorOf s (s.blen - 1)
      kb := keyByte s (s.blen % s.klen), b := bufByte (permfStage s) (cursorOf s (s.blen - 1))
      buf := (permfStage s).buf } := by
  have pprev := permfAfter_pprev s (s.blen - 1)
  have b := permfAfter_b s (s.blen - 1)
  rw [Nat.sub_add_cancel hn] at pprev b
  calc permfStage s
      = { s with
          t := (permfAfter s s.blen).t, pkc := (permfAfter s s.blen).pkc, pbc := (permfAfter s s.blen).pbc
          pprev := (permfAfter s s.blen).pprev, kb := (permfAfter s s.blen).kb, b := (permfAfter s s.blen).b
          buf := (permfStage s).buf } := rfl
    _ = _ := by rw [permfAfter_t, permfAfter_pkc, permfAfter_pbc, pprev, permfAfter_kb, b]; rfl

/-- PERMI over a buffer that is not empty: the reconstruction, then the registers after the last inverse step, which has
stepped back to the start of the forward walk (R149). -/
theorem permiStage_eq {s : State} (hn : 1 ≤ s.blen) (hk : 1 ≤ s.klen) :
    permiStage s = { s with
      q := (s.blen + 1) / s.klen, m := (s.blen + 1) % s.klen, i := s.klen
      sum := sumTo (fun i => (keyByte s i).toNat * usage ((s.blen + 1) / s.klen) ((s.blen + 1) % s.klen) i) s.klen
      t := s.blen, pkc := 1 % s.klen, pbc := cursorOf s 0, pprev := cursorOf s 1, kb := keyByte s (1 % s.klen)
      b := bufByte (permiStage s) (cursorOf s 0), buf := (permiStage s).buf } := by
  have pkc := permiAfter_pkc hk (Nat.le_refl s.blen)
  have pbc := permiAfter_pbc hk (Nat.le_refl s.blen)
  have last : s.blen - 1 + 1 ≤ s.blen := Nat.le_of_eq (Nat.sub_add_cancel hn)
  have pprev := permiAfter_pprev hk last
  have kb := permiAfter_kb hk last
  have b := permiAfter_b hk last
  rw [Nat.add_sub_cancel_left] at pkc
  rw [Nat.sub_self] at pbc
  rw [Nat.sub_add_cancel hn, Nat.sub_sub_self hn] at pprev kb
  rw [Nat.sub_add_cancel hn, Nat.sub_self] at b
  calc permiStage s
      = { s with
          q := (s.blen + 1) / s.klen, m := (s.blen + 1) % s.klen, i := (reconstruct s).i, sum := (reconstruct s).sum
          t := (permiAfter s s.blen).t, pkc := (permiAfter s s.blen).pkc, pbc := (permiAfter s s.blen).pbc
          pprev := (permiAfter s s.blen).pprev, kb := (permiAfter s s.blen).kb, b := (permiAfter s s.blen).b
          buf := (permiStage s).buf } := rfl
    _ = _ := by
      rw [reconstruct_i, reconstruct_sum, sumAfter_i, sumAfter_sum, permiAfter_t, pkc, pbc, pprev, kb, b]; rfl

/-- Settles O20: the forward chain, and the registers after its last step. -/
theorem permfResult : Obligations.PermfResult := fun _ hn hk hl =>
  have run := stage_run permfStage hn hk hl
  ⟨_, run, congrFun (exec_permf_bytes run), permfStage_eq hn⟩

/-- Settles O21: the backward chain, the reconstruction, and the registers after the last inverse step. -/
theorem permiResult : Obligations.PermiResult := fun _ hn hk hl =>
  have run := stage_run permiStage hn hk hl
  ⟨_, run, congrFun (exec_permi_bytes run), permiStage_eq hn hk⟩

/-! ### The reconstruction -/

/-- The forward stage consumes N + 1 key bytes, and every use is counted under its key index (R145). -/
theorem usage_total {k : Nat} (hk : 1 ≤ k) (n : Nat) : sumTo (usage (n / k) (n % k)) k = n := by
  have counted := usage_sum (fun _ => 1) hk n
  simp only [Nat.one_mul] at counted
  exact counted.trans (sumTo_one n)

/-- R13's bound: each of the N + 1 key bytes is at most 255. -/
theorem reconstruct_sum_le {s : State} (hk : 1 ≤ s.klen) : (reconstruct s).sum ≤ 255 * (s.blen + 1) := by
  rw [reconstruct_sum_eq hk]
  exact sumTo_le_mul (fun _ => Nat.le_of_lt_succ (BitVec.isLt _)) _

/-- Settles O22: PERMF's cursors are at `c(N)` and `N mod K`; grouping the consumed key bytes by index gives the sum. -/
theorem reconstructionFindsTheEndOfTheWalk : Obligations.ReconstructionFindsTheEndOfTheWalk := by
  intro s t hn hk h
  rcases stage_next h with ⟨h0, _⟩ | ⟨_, _, _, rfl⟩
  · omega
  · refine ⟨?_, ?_, rfl, rfl, sumAfter_sum .., rfl, usage_total hk (s.blen + 1), reconstruct_sum_le hk⟩
    · rw [permfStage_eq hn, reconstruct_pbc_eq hk]
    · rw [permfStage_eq hn, reconstruct_pkc, Nat.mod_add_mod]

/-! ### The stages undo each other (R150) -/

/-- With a key and lengths in capacity a stage answers next, an empty buffer included. -/
theorem stage_answers (f : State → State) {s : State} (hk : 1 ≤ s.klen) (hl : lengthsFit s = true) :
    ∃ t, stage f s = .next t := by
  rcases Nat.eq_zero_or_pos s.blen with hn | hn
  · exact ⟨s, stage_empty f hn⟩
  · exact ⟨f s, stage_run f hn hk hl⟩

/-- What the cursors are computed from outlives a unit operation, and so do the lengths a stage's guard looks at. -/
theorem exec_unit_keeps_cursor {i : Instr} (hi : i.issuer = .sequencer) {s t : State} (h : exec i s = .next t) :
    cursorOf t = cursorOf s ∧ t.klen = s.klen ∧ t.blen = s.blen ∧ lengthsFit t = lengthsFit s := by
  rw [exec_unit_writes hi h]
  exact ⟨rfl, rfl, rfl, rfl⟩

/-- So does any stage after a unit operation. -/
theorem stage_answers_after (f : State → State) {i : Instr} (hi : i.issuer = .sequencer) {s t : State}
    (h : exec i s = .next t) (hk : 1 ≤ s.klen) (hl : lengthsFit s = true) : ∃ u, stage f t = .next u := by
  obtain ⟨_, klen, _, lengths⟩ := exec_unit_keeps_cursor hi h
  exact stage_answers f (klen ▸ hk) (lengths.trans hl)

/-- PERMI goes back over the forward walk's own cursors. -/
theorem exec_permi_bytes_after_permf {s t u : State} (ht : exec .permf s = .next t) (hu : exec .permi t = .next u) :
    bufByte u = unwalk (cursorOf s) s.blen (bufByte t) := by
  obtain ⟨cursor, _, blen, _⟩ := exec_unit_keeps_cursor rfl ht
  rw [← cursor, ← blen]
  exact exec_permi_bytes hu

theorem exec_permi_undoes_permf {s t u : State} (ht : exec .permf s = .next t) (hu : exec .permi t = .next u) :
    bufByte u = bufByte s := by
  rw [exec_permi_bytes_after_permf ht hu, exec_permf_bytes ht]
  exact unwalk_walk ..

theorem exec_permf_undoes_permi {s t u : State} (ht : exec .permi s = .next t) (hu : exec .permf t = .next u) :
    bufByte u = bufByte s := by
  obtain ⟨cursor, _, blen, _⟩ := exec_unit_keeps_cursor rfl ht
  calc bufByte u
      = walk (cursorOf t) t.blen (bufByte t) := exec_permf_bytes hu
    _ = walk (cursorOf s) s.blen (unwalk (cursorOf s) s.blen (bufByte s)) := by
        rw [cursor, blen, exec_permi_bytes ht]; rfl
    _ = bufByte s := walk_unwalk ..

/-- Settles O23: each stage's chain of swaps is the other's in reverse order. -/
theorem permutationStagesInvert : Obligations.PermutationStagesInvert := by
  intro s hk hl
  constructor
  · obtain ⟨t, ht⟩ := stage_answers permfStage hk hl
    obtain ⟨u, hu⟩ := stage_answers_after permiStage (i := .permf) rfl ht hk hl
    exact ⟨t, u, ht, hu, congrFun (exec_permf_bytes ht), congrFun (exec_permi_bytes_after_permf ht hu),
      congrFun (exec_permi_undoes_permf ht hu)⟩
  · obtain ⟨t, ht⟩ := stage_answers permiStage hk hl
    obtain ⟨u, hu⟩ := stage_answers_after permfStage (i := .permi) rfl ht hk hl
    exact ⟨t, u, ht, hu, congrFun (exec_permf_undoes_permi ht hu)⟩

/-- Settles O24: the bijection is the forward chain on the positions themselves. -/
theorem permfRearrangesByKeyAndLengthOnly : Obligations.PermfRearrangesByKeyAndLengthOnly := by
  intro s hk hl
  have below : ∀ a, a < s.blen → walk (cursorOf s) s.blen id a < s.blen := fun _ => walk_cursor_id_lt
  have inj : ∀ a b, a < s.blen → b < s.blen → walk (cursorOf s) s.blen id a = walk (cursorOf s) s.blen id b → a = b :=
    fun _ _ _ _ e => walk_id_injective _ _ e
  refine ⟨walk (cursorOf s) s.blen id, below, inj, fun s₂ hk₂ hn₂ hl₂ hkey => ?_⟩
  have same : cursorOf s₂ = cursorOf s := by
    show cursor (keyByte s₂) s₂.klen s₂.blen = cursor (keyByte s) s.klen s.blen
    rw [hk₂, hn₂, cursor_congr hk hkey]
  obtain ⟨t, ht⟩ := stage_answers permfStage (hk₂ ▸ hk) hl₂
  obtain ⟨u, hu⟩ := stage_answers_after permiStage (i := .permf) rfl ht (hk₂ ▸ hk) hl₂
  have moved : ∀ a, bufByte t a = bufByte s₂ (walk (cursorOf s) s.blen id a) := fun a => by
    rw [← walk_comp _ _ (bufByte s₂), ← same, ← hn₂]
    exact congrFun (exec_permf_bytes ht) a
  exact ⟨t, u, ht, fun a _ => moved a, map_range_perm_of_comp below inj fun a _ => moved a, hu,
    congrFun (exec_permi_undoes_permf ht hu)⟩

end Sys2Proof.Machine
end

section
/-! The sequencer's transitions (spec/43_engine.md R174 to R178): the engine's rows (O31), that no other transition
exists (O33), that a running command cannot be cancelled (O34), and the CMD write that starts one (O3, O26). What one
step can do is said once, turn by turn: `step_next`, `hostMove_next`, and what each turn keeps. -/

namespace Sys2Proof.Machine

/-! ### The CMD write (R170) -/

theorem writeCommand_of_decoded {w : Byte} {i : Instr} (h : decodeCommand w = .ok i) (s : State) :
    writeCommand w s = exec i s := by
  simp only [writeCommand, h]

/-- Settles O3: the host owns the engine, so the write reaches the decoder, which hands the word's operation to
`exec`. -/
theorem stepRunsTheWrittenCommand : Obligations.StepRunsTheWrittenCommand := by
  intro s w i rest hs hb hi hw
  rw [step_writeCommand hs, writeCommand_of_decoded hw]
  exact whenFree_free hb hi

/-- Settles O26: past the checks a command is accepted after the sticky flags are dropped. -/
theorem legalCommandsAreAccepted : Obligations.LegalCommandsAreAccepted := by
  intro s hb hk hl
  have enc : exec .enc s = .next (acceptCommand .enc s) := if_neg (Bool.eq_false_iff.1 hb)
  have dec : exec .dec s = .next (acceptCommand .dec s) := if_neg (Bool.eq_false_iff.1 hb)
  rw [enc, dec, acceptCommand_of_fits hk hl, acceptCommand_of_fits hk hl]
  exact ⟨rfl, rfl⟩

/-! ### The engine's rows (R174) -/

/-- A phase that issues a unit operation runs it to its end and takes the transition. -/
theorem engineTurn_runs_unit {s : State} (h : Invariant s) {i : Instr} (hi : unitOf s.phase s.dir = some i) :
    ∃ t, exec i s = .next t ∧ engineTurn s = .next (unitDone t) ∧ UnitFrame s t ∧ (i ≠ .rcd → t.rc = s.rc) := by
  rcases engineTurn_cases h with ⟨none, _⟩ | ⟨j, t, some, _, run, turn, frame, _, keep⟩
  · cases none.symm.trans hi
  · cases some.symm.trans hi
    exact ⟨t, run, turn, frame, keep⟩

/-- Out of KDF starts round 0, whose round value is 0 or `RC - 1`. -/
theorem engineTurn_kdf {s : State} (h : Invariant s) (hp : s.phase = .kdf) :
    ∃ t, exec .rcd s = .next t ∧
      engineTurn s = .next { t with phase := firstPhase s.dir, r := roundValue s.dir t.rc 0#8 } := by
  obtain ⟨t, run, turn, f, _⟩ := engineTurn_runs_unit h (i := .rcd) ((unitOf_rcd_iff _ _).2 hp)
  refine ⟨t, run, turn.trans ?_⟩
  rw [unitDone_kdf (f.phase.trans hp), startRound, f.dir, f.sRounds, h.noRoundYet hp]

/-- A round's first stage is followed by its second. -/
theorem engineTurn_firstStage {s : State} (h : Invariant s) {i : Instr} (hi : unitOf s.phase s.dir = some i)
    {p : Phase} (row : ∀ t : State, t.phase = s.phase → t.dir = s.dir → unitDone t = { t with phase := p }) :
    ∃ t, exec i s = .next t ∧ engineTurn s = .next { t with phase := p } := by
  obtain ⟨t, run, turn, f, _⟩ := engineTurn_runs_unit h hi
  exact ⟨t, run, row t f.phase f.dir ▸ turn⟩

/-- A round's second stage is followed by the event of R and RC. -/
theorem engineTurn_secondStage {s : State} (h : Invariant s) {i : Instr} (hi : unitOf s.phase s.dir = some i)
    (hr : i ≠ .rcd) (row : ∀ t : State, t.phase = s.phase → t.dir = s.dir → unitDone t = emit t) :
    ∃ t, exec i s = .next t ∧ engineTurn s = .next { t with
      phase := .rpt, prog := s.rc ++ s.r, progv := true, ptrace := s.ptrace ++ [(s.r, s.rc)] } := by
  obtain ⟨t, run, turn, f, keep⟩ := engineTurn_runs_unit h hi
  refine ⟨t, run, turn.trans ?_⟩
  rw [row t f.phase f.dir, emit, f.r, keep hr, f.ptrace, progWord]

/-- Settles O31: KDF starts a round, a round's first stage goes to its second, its second issues the event. -/
theorem sequencerRunsTheTable : Obligations.SequencerRunsTheTable := by
  intro s h
  refine ⟨fun hp hd => ?_, fun hp hd => ?_, fun hp hd => ?_, fun hp hd => ?_, fun hp hd => ?_, fun hp hd => ?_⟩
  · obtain ⟨t, run, turn⟩ := engineTurn_kdf h hp
    rw [hd] at turn
    exact ⟨t, run, turn⟩
  · obtain ⟨t, run, turn⟩ := engineTurn_kdf h hp
    rw [hd, roundValue, BitVec.sub_zero] at turn
    exact ⟨t, run, turn⟩
  · exact engineTurn_firstStage h (by rw [hp, hd]; rfl) fun _ p d => unitDone_sub_enc (p.trans hp) (d.trans hd)
  · exact engineTurn_secondStage h (by rw [hp, hd]; rfl) (by decide)
      fun _ p d => unitDone_prm_enc (p.trans hp) (d.trans hd)
  · exact engineTurn_firstStage h (by rw [hp, hd]; rfl) fun _ p d => unitDone_prm_dec (p.trans hp) (d.trans hd)
  · exact engineTurn_secondStage h (by rw [hp, hd]; rfl) (by decide)
      fun _ p d => unitDone_sub_dec (p.trans hp) (d.trans hd)

/-! ### What one step can do -/

/-- One step is the engine's turn, scheduled or by default, a host action, or the reset input. -/
theorem step_next {s t : State} (h : step s = .next t) :
    ((s.schedule = [] ∨ ∃ rest, s.schedule = .engine :: rest) ∧
      ∃ rest, engineTurn { s with schedule := rest } = .next t) ∨
    (∃ a rest, s.schedule = .host a :: rest ∧ hostMove a { s with schedule := rest } = .next t) ∨
    (∃ rest, s.schedule = .reset :: rest ∧ t = resetInput { s with schedule := rest }) := by
  cases hs : s.schedule with
  | nil => exact .inl ⟨.inl rfl, s.schedule, (step_nil hs).symm.trans h⟩
  | cons a rest =>
    have turn := (step_cons hs).symm.trans h
    cases a with
    | engine => exact .inl ⟨.inr ⟨rest, rfl⟩, rest, turn⟩
    | host m => exact .inr (.inl ⟨m, rest, rfl, turn⟩)
    | reset =>
      cases turn
      exact .inr (.inr ⟨rest, rfl, rfl⟩)

/-- A host action that is carried out is a CMD write to an idle engine, an ACK write, a register read, or an access to
the lengths and the memories of an idle engine (R235, R236). -/
theorem hostMove_next {a : HostMove} {s t : State} (h : hostMove a s = .next t) :
    (s.busy = false ∧ ∃ v, v < 256 ∧ a = .wr 0 v ∧ writeCommand (BitVec.ofNat 8 v) s = .next t) ∨
    (∃ v, a = .wr 7 v ∧ t = acknowledge s) ∨
    t = { s with readLog := t.readLog, idleSeen := t.idleSeen } ∨
    (s.busy = false ∧
      t = { s with key := t.key, buf := t.buf, klen := t.klen, blen := t.blen, readLog := t.readLog }) := by
  cases a with
  | wr n v =>
    rcases writeRegister_next h with ⟨rfl, hb, _, hw⟩ | ⟨_, hb, _, _, rfl⟩ | ⟨_, hb, _, _, rfl⟩ | ⟨rfl, rfl⟩
    · refine .inl ⟨hb, v, ?_, rfl, hw⟩
      cases fits : (HostMove.wr 0 v).wellFormed s.params with
      | false =>
        obtain ⟨_, e⟩ := writeRegister_of_not_wellFormed fits
        cases e.symm.trans h
      | true => exact of_decide_eq_true fits
    · exact .inr (.inr (.inr ⟨hb, rfl⟩))
    · exact .inr (.inr (.inr ⟨hb, rfl⟩))
    · exact .inr (.inl ⟨v, rfl, rfl⟩)
  | rd n =>
    obtain ⟨v, _, rfl⟩ := readRegisterMove_next h
    exact .inr (.inr (.inl (by rw [noteStatusRead_eq]; rfl)))
  | kw _ _ | kr _ | bw _ _ | br _ =>
    obtain ⟨_, hb, _, rfl⟩ := memoryMove_next h
    exact .inr (.inr (.inr ⟨hb, rfl⟩))

/-- A CMD write that changes the phase carries ENC's or DEC's word, and starts RCD (R170, R202). -/
theorem writeCommand_phase {v : Nat} (hv : v < 256) {s t : State}
    (h : writeCommand (BitVec.ofNat 8 v) s = .next t) (hne : t.phase ≠ s.phase) :
    (v = 1 ∨ v = 2) ∧ t.phase = .kdf := by
  have word : BitVec.ofNat 8 v = 0x01#8 ∨ BitVec.ofNat 8 v = 0x02#8 := by
    refine Decidable.byContradiction fun illegal => ?_
    obtain ⟨h1, h2⟩ := not_or.1 illegal
    cases (writeCommand_illegal h1 h2 s).symm.trans h
    exact hne rfl
  refine ⟨word.imp (fun e => by bv_omega) fun e => by bv_omega, ?_⟩
  rcases writeCommand_next h with rfl | ⟨d, _, rfl⟩
  · exact absurd rfl hne
  · rcases acceptCommand_cases d s with ⟨_, e⟩ | ⟨_, _, e⟩ | ⟨_, _, e⟩ <;> rw [e] at hne ⊢
    · exact absurd rfl hne
    · exact absurd rfl hne
    · rfl

/-! ### What a turn keeps -/

/-- Whatever it does, the engine's turn leaves the parameters, the direction, the key, the lengths and BUSY. -/
theorem engineTurn_keeps {s t : State} (h : engineTurn s = .next t) :
    t.params = s.params ∧ t.dir = s.dir ∧ t.key = s.key ∧ t.klen = s.klen ∧ t.blen = s.blen ∧ t.busy = s.busy := by
  cases hu : unitOf s.phase s.dir with
  | none =>
    cases (engineTurn_of_none hu).symm.trans h
    exact ⟨rfl, rfl, rfl, rfl, rfl, rfl⟩
  | some i =>
    obtain ⟨u, hx, rfl⟩ := Result.map_eq_next ((engineTurn_of_some hu).symm.trans h)
    rw [unitDone_writes, exec_unit_writes (unitOf_issuer hu) hx]
    exact ⟨rfl, rfl, rfl, rfl, rfl, rfl⟩

/-- An acknowledgement writes the sequencer's registers and the flags of completion only. -/
theorem acknowledge_writes (s : State) :
    acknowledge s = { s with
      phase := (acknowledge s).phase, r := (acknowledge s).r, sRounds := (acknowledge s).sRounds
      progv := (acknowledge s).progv, busy := (acknowledge s).busy, done := (acknowledge s).done } := by
  rcases acknowledge_cases s with ⟨_, e⟩ | ⟨_, _, e⟩ | ⟨_, _, e⟩ <;> rw [e] <;> rfl

/-- R178: an acknowledgement ends a command only when its last event waits. -/
theorem acknowledge_busy {s : State} (h : Invariant s) (hb : s.busy = true) :
    (acknowledge s).busy = true ∨ (s.phase = .rpt ∧ s.sRounds.toNat + 1 = s.rc.toNat) := by
  rcases acknowledge_cases s with ⟨_, e⟩ | ⟨_, _, e⟩ | ⟨pending, last, _⟩
  · exact .inl (by rwa [e])
  · exact .inl (by rwa [e])
  · have hp := h.progvPhase.1 pending
    have below := (h.inRound (.inr (.inr hp))).2.1
    exact .inr ⟨hp, by omega⟩

/-! ### The changes of PHASE -/

/-- The engine's rows of R174. -/
theorem nextPhase_rows {p : Phase} {d : Dir} (h : nextPhase p d ≠ p) :
    (p = .kdf ∧ d = .enc ∧ nextPhase p d = .sub) ∨ (p = .kdf ∧ d = .dec ∧ nextPhase p d = .prm) ∨
    (p = .sub ∧ d = .enc ∧ nextPhase p d = .prm) ∨ (p = .prm ∧ d = .enc ∧ nextPhase p d = .rpt) ∨
    (p = .prm ∧ d = .dec ∧ nextPhase p d = .sub) ∨ (p = .sub ∧ d = .dec ∧ nextPhase p d = .rpt) := by
  cases p with
  | idle | rpt => exact absurd rfl h
  | kdf | sub | prm => cases d <;> decide

/-- In every phase that issues a unit operation the engine moves on. -/
theorem nextPhase_ne {p : Phase} (hi : p ≠ .idle) (hr : p ≠ .rpt) (d : Dir) : nextPhase p d ≠ p := by
  cases p with
  | idle => exact absurd rfl hi
  | rpt => exact absurd rfl hr
  | kdf | sub | prm => cases d <;> decide

/-- The rows of R174 that an acknowledgement takes. -/
theorem acknowledge_rows {s : State} (h : Invariant s) (hne : (acknowledge s).phase ≠ s.phase) :
    s.phase = .rpt ∧
      ((s.sRounds.toNat < s.rc.toNat - 1 ∧ s.dir = .enc ∧ (acknowledge s).phase = .sub) ∨
       (s.sRounds.toNat < s.rc.toNat - 1 ∧ s.dir = .dec ∧ (acknowledge s).phase = .prm) ∨
       (s.sRounds.toNat = s.rc.toNat - 1 ∧ (acknowledge s).phase = .idle)) := by
  rcases acknowledge_cases s with ⟨_, e⟩ | ⟨pending, more, e⟩ | ⟨pending, last, e⟩
  · exact absurd (congrArg State.phase e) hne
  · have next : (acknowledge s).phase = firstPhase s.dir := congrArg State.phase e
    refine ⟨h.progvPhase.1 pending, ?_⟩
    rw [next]
    cases s.dir with
    | enc => exact .inl ⟨by omega, rfl, rfl⟩
    | dec => exact .inr (.inl ⟨by omega, rfl, rfl⟩)
  · have hp := h.progvPhase.1 pending
    have below := (h.inRound (.inr (.inr hp))).2.1
    exact ⟨hp, .inr (.inr ⟨by omega, congrArg State.phase e⟩)⟩

/-- Settles O33: by whose turn it was; of the host's actions only a CMD write and an acknowledgement touch PHASE. -/
theorem phaseChangesOnlyByTheTable : Obligations.PhaseChangesOnlyByTheTable := by
  intro s t h hstep hne
  rcases step_next hstep with ⟨turn, rest, e⟩ | ⟨a, rest, hs, e⟩ | ⟨rest, hs, rfl⟩
  · have next : t.phase = nextPhase s.phase s.dir := (engineTurn_advances e).1
    rw [next] at hne ⊢
    exact .inr (.inl ⟨turn, nextPhase_rows hne⟩)
  · rcases hostMove_next e with ⟨hb, v, hv, rfl, hw⟩ | ⟨v, rfl, rfl⟩ | e | ⟨_, e⟩
    · obtain ⟨word, kdf⟩ := writeCommand_phase hv hw hne
      exact .inl ⟨h.phase_idle hb, kdf, v, rest, word, hs⟩
    · obtain ⟨hp, rows⟩ := acknowledge_rows (invariant_schedule h rest) hne
      exact .inr (.inr (.inl ⟨hp, ⟨v, rest, hs⟩, rows⟩))
    · exact absurd (congrArg State.phase e) hne
    · exact absurd (congrArg State.phase e) hne
  · exact .inr (.inr (.inr ⟨⟨rest, hs⟩, rfl⟩))

/-- Settles O34: the engine's turn keeps what the command works on and moves on, and of the host's actions only register
reads and acknowledgements are carried out while BUSY = 1. -/
theorem runningCommandCannotBeCancelled : Obligations.RunningCommandCannotBeCancelled := by
  intro s t h hb noReset hstep
  rcases step_next hstep with ⟨_, rest, e⟩ | ⟨a, rest, hs, e⟩ | ⟨rest, hs, _⟩
  · obtain ⟨_, dir, key, klen, blen, busy⟩ := engineTurn_keeps e
    refine ⟨dir, key, klen, blen, .inl (busy.trans hb), fun hr _ => ?_⟩
    rw [(engineTurn_advances e).1]
    exact nextPhase_ne (h.busyPhase.1 hb) hr _
  · have notEngine : ¬ (s.schedule = [] ∨ ∃ rest, s.schedule = .engine :: rest) := by simp [hs]
    rcases hostMove_next e with ⟨idle, _⟩ | ⟨v, rfl, rfl⟩ | e | ⟨idle, _⟩
    · cases idle.symm.trans hb
    · have busy := acknowledge_busy (invariant_schedule h rest) hb
      rw [acknowledge_writes]
      exact ⟨rfl, rfl, rfl, rfl, busy.imp_right fun ⟨hp, last⟩ => ⟨hp, last, v, rest, hs⟩,
        fun _ turn => absurd turn notEngine⟩
    · rw [e]
      exact ⟨rfl, rfl, rfl, rfl, .inl hb, fun _ turn => absurd turn notEngine⟩
    · cases idle.symm.trans hb
  · exact absurd hs (noReset rest)

end Sys2Proof.Machine
end

section
/-! Whole commands (spec/43_engine.md R179 to R186): what the canonical run of a command computes (O38), that DEC and ENC
undo each other (O39), that a command depends on word, lengths, key and buffer only (O41), and that ENC takes each byte
of the buffer to one place by one byte bijection (O42). The run is `runCommand_computes`; the rest is about `Spec`. -/

namespace Sys2Proof.Spec

open Sys2Proof.Machine (Dir)

/-! ### The inverse chain on the positions -/

/-- The backward chain rearranges positions too: it is undone by the forward one, which does. -/
theorem unwalk_comp {α : Type} (c : Nat → Nat) (t : Nat) (f : Nat → α) (a : Nat) :
    unwalk c t f a = f (unwalk c t id a) := by
  have forth : walk c t (fun b => f (unwalk c t id b)) = f := by
    funext b
    rw [walk_comp, ← walk_comp c t (unwalk c t id), walk_unwalk, id]
  calc unwalk c t f a
      = unwalk c t (walk c t fun b => f (unwalk c t id b)) a := by rw [forth]
    _ = f (unwalk c t id a) := by rw [unwalk_walk]

theorem unwalk_id_injective (c : Nat → Nat) (t : Nat) : Function.Injective (unwalk c t id) :=
  Function.LeftInverse.injective (g := walk c t id) fun a =>
    (unwalk_comp c t (walk c t id) a).symm.trans (congrFun (unwalk_walk c t id) a)

/-- A position below N gets its byte from below N in the backward chain too. -/
theorem unwalk_cursor_id_lt {key : Nat → Byte} {k n a : Nat} (ha : a < n) : unwalk (cursor key k n) n id a < n := by
  refine Nat.lt_of_not_le fun above => ?_
  have fixed : unwalk (cursor key k n) n id a = a := unwalk_id_injective _ _ (unwalk_cursor_above above id)
  omega

/-! ### A command undoes the other (R180) -/

/-- For each key byte and round the substitution is undone by its inverse (R125). -/
theorem subi_subf (b kb r c : Byte) : subi (subf b kb r c) kb r c = b := Machine.subiByte_subfByte b kb r c

theorem subf_subi (b kb r c : Byte) : subf (subi b kb r c) kb r c = b := Machine.subfByte_subiByte b kb r c

/-- Each of a round's two parts is undone by the opposite direction's other part. -/
theorem opposite_round (d : Dir) (key : Nat → Byte) (k n : Nat) (c r : Byte) (buf : Nat → Byte) :
    endRound d.opposite key k n c r (midRound d.opposite key k n c r
      (endRound d key k n c r (midRound d key k n c r buf))) = buf := by
  cases d with
  | enc =>
    show substitute subi key k n r c (unwalk _ n (walk _ n (substitute subf key k n r c buf))) = buf
    rw [unwalk_walk]
    exact substitute_substitute subi_subf ..
  | dec =>
    show walk _ n (substitute subf key k n r c (substitute subi key k n r c (unwalk _ n buf))) = buf
    rw [substitute_substitute subf_subi, walk_unwalk]

/-- The opposite command meets the round values in the opposite order (R173). -/
theorem roundIndex_opposite (d : Dir) {c j : Nat} (hj : j < c) :
    roundIndex d.opposite c j = roundIndex d c (c - (j + 1)) := by
  cases d with
  | enc => show c - 1 - j = c - (j + 1); omega
  | dec => show j = c - 1 - (c - (j + 1)); omega

/-- The first `j` rounds of the opposite command undo the last `j` rounds. -/
theorem rounds_opposite (d : Dir) (key : Nat → Byte) (k n c : Nat) (buf : Nat → Byte) {j : Nat} (hj : j ≤ c) :
    rounds d.opposite key k n c (rounds d key k n c buf c) j = rounds d key k n c buf (c - j) := by
  induction j with
  | zero => rfl
  | succ j ih =>
    rw [rounds_succ, ih (by omega), roundIndex_opposite d (by omega), show c - j = c - (j + 1) + 1 by omega, rounds_succ,
      opposite_round]

theorem command_opposite (d : Dir) (key : Nat → Byte) (k n : Nat) (buf : Nat → Byte) :
    command d.opposite key k n (command d key k n buf) = buf := by
  rw [command, command, rounds_opposite d _ _ _ _ _ (Nat.le_refl _), Nat.sub_self, rounds]

/-! ### What a command depends on (R186) -/

section
variable {key₁ key₂ : Nat → Byte} {k : Nat}

theorem roundCount_congr (h : ∀ i, i < k → key₁ i = key₂ i) : roundCount key₁ k = roundCount key₂ k := by
  have sum := sumTo_congr (g := fun i => (key₁ i).toNat) (h := fun i => (key₂ i).toNat) fun i hi => by rw [h i hi]
  rw [roundCount, roundCount, accumulator, accumulator, sum]

theorem substitute_key_congr (hk : 1 ≤ k) (h : ∀ i, i < k → key₁ i = key₂ i)
    (f : Byte → Byte → Byte → Byte → Byte) (n : Nat) : substitute f key₁ k n = substitute f key₂ k n := by
  funext r c buf a
  rw [substitute, substitute, h _ (Nat.mod_lt _ hk)]

theorem rounds_key_congr (hk : 1 ≤ k) (h : ∀ i, i < k → key₁ i = key₂ i) (d : Dir) (n c : Nat) (buf : Nat → Byte)
    (j : Nat) : rounds d key₁ k n c buf j = rounds d key₂ k n c buf j := by
  induction j with
  | zero => rfl
  | succ j ih =>
    cases d <;> simp only [rounds, encRound, decRound, ih, cursor_congr hk h, substitute_key_congr hk h]

/-- A command reads the key below K only. -/
theorem command_key_congr (hk : 1 ≤ k) (h : ∀ i, i < k → key₁ i = key₂ i) (d : Dir) (n : Nat) :
    command d key₁ k n = command d key₂ k n := by
  funext buf
  rw [command, command, roundCount_congr h, rounds_key_congr hk h]

end

section
variable {n : Nat} {buf₁ buf₂ : Nat → Byte}

theorem substitute_buf_congr (h : ∀ a, a < n → buf₁ a = buf₂ a) (f : Byte → Byte → Byte → Byte → Byte)
    (key : Nat → Byte) (k : Nat) (r c : Byte) {a : Nat} (ha : a < n) :
    substitute f key k n r c buf₁ a = substitute f key k n r c buf₂ a := by
  rw [substitute, substitute, h a ha]

theorem walk_buf_congr (h : ∀ a, a < n → buf₁ a = buf₂ a) (key : Nat → Byte) (k : Nat) {a : Nat} (ha : a < n) :
    walk (cursor key k n) n buf₁ a = walk (cursor key k n) n buf₂ a := by
  rw [walk_comp, walk_comp _ _ buf₂, h _ (walk_cursor_id_lt ha)]

theorem unwalk_buf_congr (h : ∀ a, a < n → buf₁ a = buf₂ a) (key : Nat → Byte) (k : Nat) {a : Nat} (ha : a < n) :
    unwalk (cursor key k n) n buf₁ a = unwalk (cursor key k n) n buf₂ a := by
  rw [unwalk_comp, unwalk_comp _ _ buf₂, h _ (unwalk_cursor_id_lt ha)]

/-- The bytes below N that a command leaves depend on the bytes below N only. -/
theorem rounds_buf_congr (h : ∀ a, a < n → buf₁ a = buf₂ a) (d : Dir) (key : Nat → Byte) (k c j : Nat) :
    ∀ a, a < n → rounds d key k n c buf₁ j a = rounds d key k n c buf₂ j a := by
  induction j with
  | zero => exact h
  | succ j ih =>
    cases d with
    | enc => exact fun _ => walk_buf_congr (fun _ => substitute_buf_congr ih _ key k _ _) key k
    | dec => exact fun _ => substitute_buf_congr (fun _ => unwalk_buf_congr ih key k) _ key k _ _

end

/-! ### Where ENC takes a byte (R181) -/

/-- The position to which the first `j` rounds of ENC take the byte at `p`. -/
def carried (key : Nat → Byte) (k n : Nat) : Nat → Nat → Nat
  | 0, p => p
  | j + 1, p => unwalk (cursor key k n) n id (carried key k n j p)

/-- What they make of that byte: each round substitutes it where it stands. -/
def carriedByte (key : Nat → Byte) (k n c : Nat) : Nat → Nat → Byte → Byte
  | 0, _, x => x
  | j + 1, p, x =>
    subf (carriedByte key k n c j p x) (key ((n - carried key k n j p) % k)) (BitVec.ofNat 8 j) (BitVec.ofNat 8 c)

theorem carried_lt {key : Nat → Byte} {k n p : Nat} (j : Nat) (hp : p < n) : carried key k n j p < n := by
  induction j with
  | zero => exact hp
  | succ j ih => exact unwalk_cursor_id_lt ih

theorem carried_injective (key : Nat → Byte) (k n j : Nat) : Function.Injective (carried key k n j) := by
  induction j with
  | zero => exact Function.injective_id
  | succ j ih => exact (unwalk_id_injective _ _).comp ih

/-- Every position below N is reached: the injection of the positions below N only reorders them. -/
theorem exists_carried_eq {key : Nat → Byte} {k n q : Nat} (j : Nat) (hq : q < n) :
    ∃ p, p < n ∧ carried key k n j p = q := by
  have reordered := map_range_perm (f := carried key k n j) (fun _ => carried_lt j)
    fun _ _ _ _ e => carried_injective key k n j e
  obtain ⟨p, hp, e⟩ := List.mem_map.1 (reordered.mem_iff.2 (List.mem_range.2 hq))
  exact ⟨p, List.mem_range.1 hp, e⟩

theorem carriedByte_injective (key : Nat → Byte) (k n c j p : Nat) :
    Function.Injective (carriedByte key k n c j p) := by
  induction j with
  | zero => exact fun _ _ e => e
  | succ j ih =>
    intro x y e
    have before := congrArg (fun b => subi b (key ((n - carried key k n j p) % k)) (BitVec.ofNat 8 j)
      (BitVec.ofNat 8 c)) e
    simp only [carriedByte, subi_subf] at before
    exact ih before

theorem exists_carriedByte_eq (key : Nat → Byte) (k n c j p : Nat) (y : Byte) :
    ∃ x, carriedByte key k n c j p x = y := by
  induction j generalizing y with
  | zero => exact ⟨y, rfl⟩
  | succ j ih =>
    obtain ⟨x, e⟩ := ih (subi y (key ((n - carried key k n j p) % k)) (BitVec.ofNat 8 j) (BitVec.ofNat 8 c))
    exact ⟨x, by rw [carriedByte, e, subf_subi]⟩

/-- The rounds of ENC do nothing but carry the bytes. -/
theorem rounds_enc_carried (key : Nat → Byte) (k : Nat) {n : Nat} (c : Nat) (buf : Nat → Byte) (j : Nat) {p : Nat}
    (hp : p < n) : rounds .enc key k n c buf j (carried key k n j p) = carriedByte key k n c j p (buf p) := by
  induction j with
  | zero => rfl
  | succ j ih =>
    have back : ∀ f : Nat → Byte, walk (cursor key k n) n f (carried key k n (j + 1) p) = f (carried key k n j p) :=
      fun f => (unwalk_comp _ n (walk _ n f) _).symm.trans (congrFun (unwalk_walk ..) _)
    rw [rounds, encRound, back, substitute, if_pos (carried_lt j hp), ih, carriedByte]

end Sys2Proof.Spec

namespace Sys2Proof.Machine

open Sys2Proof.Spec

/-! ### The parameters outlive a run (R40) -/

theorem writeCommand_params {w : Byte} {s t : State} (h : writeCommand w s = .next t) : t.params = s.params := by
  rcases writeCommand_next h with rfl | ⟨d, _, rfl⟩
  · rfl
  · rw [acceptCommand_writes]

theorem hostMove_params {a : HostMove} {s t : State} (h : hostMove a s = .next t) : t.params = s.params := by
  rcases hostMove_next h with ⟨_, _, _, _, hw⟩ | ⟨_, _, rfl⟩ | e | ⟨_, e⟩
  · exact writeCommand_params hw
  · rw [acknowledge_writes]
  · rw [e]
  · rw [e]

theorem step_params {s t : State} (h : step s = .next t) : t.params = s.params := by
  rcases step_next h with ⟨_, rest, e⟩ | ⟨a, rest, _, e⟩ | ⟨rest, _, rfl⟩
  · exact (engineTurn_keeps e).1
  · exact hostMove_params (s := { s with schedule := rest }) e
  · rfl

/-- A run of one step more takes that step first. -/
theorem run_succ_next {n : Nat} {s t : State} (h : Host.Core.run Sys2Proof.core (n + 1) s = .next t) :
    ∃ u, step s = .next u ∧ Host.Core.run Sys2Proof.core n u = .next t := by
  cases hs : step s with
  | next u => exact ⟨u, rfl, (run_succ n hs).symm.trans h⟩
  | fault e =>
    have hs : Sys2Proof.core.step s = .fault e := hs
    simp [Host.Core.run, hs] at h
  | refused e =>
    have hs : Sys2Proof.core.step s = .refused e := hs
    simp [Host.Core.run, hs] at h

theorem run_params {n : Nat} {s t : State} (h : Host.Core.run Sys2Proof.core n s = .next t) :
    t.params = s.params := by
  induction n generalizing s with
  | zero =>
    cases (run_zero s).symm.trans h
    rfl
  | succ n ih =>
    obtain ⟨u, first, rest⟩ := run_succ_next h
    exact (ih rest).trans (step_params first)

theorem runCommand_params {d : Dir} {c : Nat} {s t : State} (h : runCommand d c s = .next t) : t.params = s.params :=
  run_params (s := { s with schedule := commandTurns (commandWord d) c }) h

/-! ### What the canonical run of a command computes -/

/-- After a whole command the next one may be written. -/
theorem CommandRun.ready {d : Dir} {s t : State} (h : CommandRun d s t) (hs : Ready s) (params : t.params = s.params)
    (hb : t.busy = false) (seen : t.idleSeen = true) : Ready t where
  inv := h.inv
  notBusy := hb
  idleSeen := seen
  keyNonEmpty := h.klen ▸ hs.keyNonEmpty
  lengths := by
    rw [lengthsFit, params, h.klen, h.blen]
    exact hs.lengths

/-- A whole command of a ready state, told by the key and the lengths of any state that shares them with it. -/
theorem runCommand_computes (d : Dir) {s s₂ : State} (h : Ready s₂) (hk : s₂.klen = s.klen) (hn : s₂.blen = s.blen)
    (hkey : ∀ i, i < s.klen → keyByte s₂ i = keyByte s i) :
    ∃ t, runCommand d (roundCount (keyByte s) s.klen) s₂ = .next t ∧ CommandRun d s₂ t ∧ Ready t ∧ t.schedule = [] ∧
      totalRounds s₂ = totalRounds s ∧
      bufByte t = command d (keyByte s) s.klen s.blen (bufByte s₂) := by
  have total : totalRounds s₂ = roundCount (keyByte s) s.klen := by rw [totalRounds, hk, roundCount_congr hkey]
  obtain ⟨t, e, hs, rounds, seen⟩ := runCommand_completes d h
  have hb := rounds.not_busy
  refine ⟨t, total ▸ e, rounds.run, rounds.run.ready h (runCommand_params e) hb seen, hs, total, ?_⟩
  rw [(rounds.run.completed hb).2.1, hk, hn, command_key_congr (hk ▸ h.keyNonEmpty) hkey]

/-- Settles O38: the canonical run ends, and `CommandRun` says what its last state holds. -/
theorem wholeCommandComputesItsFunction : Obligations.WholeCommandComputesItsFunction := by
  intro d s h
  obtain ⟨t, e, run, ready, schedule, _, bytes⟩ := runCommand_computes d (s := s) h rfl rfl fun _ _ => rfl
  obtain ⟨done, _, rc, r, events, prog⟩ := run.completed ready.notBusy
  exact ⟨t, e, fun a _ => congrFun bytes a, fun a ha => by rw [run.bytes, bytesAt_above d s _ _ ha], rc,
    r.trans (by cases d <;> rfl), run.dir, done, ready.notBusy, run.err, events, prog, run.key, run.klen, run.blen,
    schedule, ready⟩

/-- Settles O39: the second command runs with the key and lengths of the first, and undoes its function. -/
theorem decryptionUndoesEncryption : Obligations.DecryptionUndoesEncryption := by
  intro d s h
  obtain ⟨t, e, run, ready, _, _, bytes⟩ := runCommand_computes d (s := s) h rfl rfl fun _ _ => rfl
  obtain ⟨u, e', _, _, _, _, bytes'⟩ :=
    runCommand_computes d.opposite ready run.klen run.blen fun i _ => congrFun run.keyByte_eq i
  refine ⟨t, u, e, e', congrFun ?_⟩
  rw [bytes', bytes, command_opposite]

/-- Settles O41: buffer, RC, R and events are given by key, lengths and buffer, and the command reads the key below K
and the buffer below N. -/
theorem commandsAreDeterministic : Obligations.CommandsAreDeterministic := by
  intro d s₁ s₂ h₁ h₂ hk hn hkey hbuf
  obtain ⟨t₁, e₁, run₁, ready₁, _, _, bytes₁⟩ := runCommand_computes d (s := s₁) h₁ rfl rfl fun _ _ => rfl
  obtain ⟨t₂, e₂, run₂, ready₂, _, total, bytes₂⟩ :=
    runCommand_computes d (s := s₁) h₂ hk.symm hn.symm fun i hi => (hkey i hi).symm
  obtain ⟨done₁, _, rc₁, r₁, events₁, _⟩ := run₁.completed ready₁.notBusy
  obtain ⟨done₂, _, rc₂, r₂, events₂, _⟩ := run₂.completed ready₂.notBusy
  rw [total] at rc₂ events₂
  have rc : t₁.rc = t₂.rc := rc₁.trans rc₂.symm
  refine ⟨t₁, t₂, progressEvents d (totalRounds s₁), e₁, e₂, done₁, done₂, fun a ha => ?_, rc,
    by rw [r₁, r₂, rc], events₁, events₂⟩
  rw [bytes₁, bytes₂]
  exact rounds_buf_congr hbuf d _ _ _ _ a ha

/-- Where a whole ENC with the key and the lengths of `s` takes the byte at `p`. -/
def encPlace (s : State) (p : Nat) : Nat := carried (keyByte s) s.klen s.blen (totalRounds s) p

/-- What it makes of that byte. -/
def encByte (s : State) (p : Nat) (x : Byte) : Byte :=
  carriedByte (keyByte s) s.klen s.blen (totalRounds s) (totalRounds s) p x

theorem runCommand_enc_carries {s s₂ : State} (h : Ready s₂) (hk : s₂.klen = s.klen) (hn : s₂.blen = s.blen)
    (hkey : ∀ i, i < s.klen → keyByte s₂ i = keyByte s i) :
    ∃ t, runCommand .enc (roundCount (keyByte s) s.klen) s₂ = .next t ∧
      ∀ p, p < s.blen → bufByte t (encPlace s p) = encByte s p (bufByte s₂ p) := by
  obtain ⟨t, e, _, _, _, _, bytes⟩ := runCommand_computes .enc h hk hn hkey
  refine ⟨t, e, fun p hp => ?_⟩
  rw [bytes]
  exact rounds_enc_carried _ _ _ _ _ hp

/-- Settles O42: every position is reached by one byte, so only the changed byte's place changes. -/
theorem eachByteDependsOnOneByte : Obligations.EachByteDependsOnOneByte := by
  intro s _
  have inj : ∀ p, Function.Injective (encByte s p) := fun p => carriedByte_injective ..
  refine ⟨encPlace s, encByte s, fun _ => carried_lt _, fun _ _ _ _ e => carried_injective _ _ _ _ e,
    fun p _ _ _ e => inj p e, fun p y _ => exists_carriedByte_eq _ _ _ _ _ p y, fun _ => runCommand_enc_carries, ?_⟩
  intro s₂ s₃ p h₂ h₃ hk₂ hk₃ hn₂ hn₃ hkey₂ hkey₃ hp differ same
  obtain ⟨t₂, e₂, bytes₂⟩ := runCommand_enc_carries h₂ hk₂ hn₂ hkey₂
  obtain ⟨t₃, e₃, bytes₃⟩ := runCommand_enc_carries h₃ hk₃ hn₃ hkey₃
  refine ⟨t₂, t₃, e₂, e₃, fun e => ?_, fun q hq hne => ?_⟩
  · rw [bytes₂ p hp, bytes₃ p hp] at e
    exact differ (inj p e)
  · obtain ⟨p', hp', rfl⟩ : ∃ p', p' < s.blen ∧ encPlace s p' = q := exists_carried_eq _ hq
    have other : p' ≠ p := fun e => hne (by rw [e])
    rw [bytes₂ p' hp', bytes₃ p' hp', same p' hp' other]

end Sys2Proof.Machine
end

section
/-! Exceptions (spec/60_exceptions.md R200 to R212): the rejections (O27, O28) and their precision (O30), that nothing
fails once a command is accepted (O11), and the wait for an acknowledgement that never comes (O35). -/

namespace Sys2Proof.Machine

/-! ### Rejected commands -/

/-- An idle engine judges either command (R170). -/
theorem exec_command_judged {i : Instr} (hi : i = .enc ∨ i = .dec) {s : State} (hb : s.busy = false) :
    ∃ d, exec i s = .next (acceptCommand d s) :=
  exec_of_host_issuer (by rcases hi with rfl | rfl <;> rfl) hb

/-- Settles O27: the check of KLEN is the first one an idle engine makes of a command. -/
theorem emptyKeyIsRejected : Obligations.EmptyKeyIsRejected := by
  intro s hb hk i hi
  obtain ⟨d, judged⟩ := exec_command_judged hi hb
  rw [judged, acceptCommand_of_emptyKey hk]
  rfl

theorem lengthsFit_of_above {s : State}
    (h : s.params.kmax.admits s.klen = false ∨ s.params.nmax.admits s.blen = false) : lengthsFit s = false :=
  Bool.and_eq_false_iff.2 h

/-- Settles O28: past the check of KLEN, one length above its capacity fails the check of both; an unbounded capacity
admits every length. -/
theorem lengthsAboveCapacityAreRejected : Obligations.LengthsAboveCapacityAreRejected := by
  refine ⟨fun s hb hk above i hi => ?_, fun s hkmax hnmax => by rw [hkmax, hnmax]; exact ⟨rfl, rfl⟩⟩
  obtain ⟨d, judged⟩ := exec_command_judged hi hb
  rw [judged, acceptCommand_of_tooLong hk (lengthsFit_of_above above)]
  rfl

/-- A CMD write that leaves ERR set is a rejection with a cause: an accepted command leaves ERR cleared (R170). -/
theorem writeCommand_rejects {w : Byte} {s t : State} (h : writeCommand w s = .next t) (herr : t.err = true) :
    ∃ e, e ≠ .noError ∧ t = raiseError e (clearSticky s) := by
  rcases writeCommand_next h with rfl | ⟨d, _, rfl⟩
  · exact ⟨.illegalCmd, by decide, rfl⟩
  · rcases acceptCommand_cases d s with ⟨_, e⟩ | ⟨_, _, e⟩ | ⟨_, _, e⟩ <;> rw [e] at herr ⊢
    · exact ⟨.keyEmpty, by decide, rfl⟩
    · exact ⟨.length, by decide, rfl⟩
    · cases herr

/-- A CMD write that is carried out reached an idle engine (U2). -/
theorem hostMove_writeCommand_next {v : Nat} {s t : State} (h : hostMove (.wr 0 v) s = .next t) :
    s.busy = false ∧ writeCommand (BitVec.ofNat 8 v) s = .next t := by
  rcases writeRegister_next h with ⟨_, hb, _, hw⟩ | ⟨n, _⟩ | ⟨n, _⟩ | ⟨n, _⟩
  · exact ⟨hb, hw⟩
  · cases n
  · cases n
  · cases n

/-- Settles O30: the write reached an idle engine, and what it left is a rejection's record of its cause. -/
theorem rejectionIsPrecise : Obligations.RejectionIsPrecise := by
  intro s t v rest hs hstep herr
  obtain ⟨hb, write⟩ := hostMove_writeCommand_next ((step_cons hs).symm.trans hstep)
  obtain ⟨e, cause, rfl⟩ := writeCommand_rejects write herr
  exact ⟨rfl, cause, rfl, hb⟩

/-! ### Nothing fails once a command is accepted (R204) -/

/-- With the invariant the phase's unit operation is inside its guards. -/
theorem engineTurn_answers {s : State} (h : Invariant s) : ∃ t, engineTurn s = .next t := by
  rcases engineTurn_cases h with ⟨_, e⟩ | ⟨_, t, _, _, _, e, _⟩
  · exact ⟨s, e⟩
  · exact ⟨unitDone t, e⟩

/-- Whatever the host does is carried out or refused. -/
theorem hostMove_ne_fault (a : HostMove) (s : State) (e : Fault) : hostMove a s ≠ .fault e := by
  intro fault
  obtain ⟨carriedOut, refused⟩ := hostActsExactlyWhereItMay s a
  cases may : hostMay s a with
  | true =>
    obtain ⟨t, next⟩ := carriedOut may
    cases next.symm.trans fault
  | false =>
    obtain ⟨r, refusal⟩ := refused may
    cases refusal.symm.trans fault

theorem engineTurn_ne_fault {s : State} (h : Invariant s) (e : Fault) : engineTurn s ≠ .fault e := by
  intro fault
  obtain ⟨t, next⟩ := engineTurn_answers h
  cases next.symm.trans fault

theorem takeTurn_ne_fault {s : State} (h : Invariant s) (a : Turn) (e : Fault) : takeTurn a s ≠ .fault e := by
  cases a with
  | engine => exact engineTurn_ne_fault h e
  | host m => exact hostMove_ne_fault m s e
  | reset =>
    intro fault
    cases fault

/-- Settles O11: by the turn at the head of the schedule; only the engine's can fault, and the invariant keeps it inside
the guards of its unit operations. -/
theorem nothingFailsOnceAccepted : Obligations.NothingFailsOnceAccepted := by
  intro s h
  refine ⟨fun e => ?_, engineTurn_answers h⟩
  cases hs : s.schedule with
  | nil => exact step_nil hs ▸ engineTurn_ne_fault h e
  | cons a rest => exact step_cons hs ▸ takeTurn_ne_fault (invariant_schedule h rest) a e

/-! ### Waiting for an acknowledgement (R212) -/

/-- `t` is `s` but for the turns to come and the host's records. -/
def SameButRecords (s t : State) : Prop := ∃ turns log seen, t = withRecords turns log seen s

theorem SameButRecords.withSchedule {s t : State} (h : SameButRecords s t) (turns : List Turn) :
    SameButRecords s { t with schedule := turns } := by
  obtain ⟨_, log, seen, rfl⟩ := h
  exact ⟨turns, log, seen, rfl⟩

/-- While the engine waits in RPT, its turn and a register read change at most the host's records. -/
theorem takeTurn_waiting {s t : State} (hp : s.phase = .rpt) (h : SameButRecords s t) {a : Turn}
    (ha : a = .engine ∨ ∃ n, n ≤ 7 ∧ a = .host (.rd n)) :
    ∃ u, takeTurn a t = .next u ∧ u.schedule = t.schedule ∧ SameButRecords s u := by
  obtain ⟨turns, log, seen, rfl⟩ := h
  rcases ha with rfl | ⟨n, hn, rfl⟩
  · have nothing : unitOf s.phase s.dir = none := by rw [hp]; rfl
    exact ⟨_, engineTurn_of_none (s := withRecords turns log seen s) nothing, rfl, _, _, _, rfl⟩
  · obtain ⟨v, value⟩ := readRegister_exists hn (withRecords turns log seen s)
    refine ⟨_, readRegisterMove_of_some value, ?_⟩
    rw [noteStatusRead_eq]
    exact ⟨rfl, _, _, _, rfl⟩

/-- Settles O35: the records are no part of STATUS, and nothing else changes, however long the run. -/
theorem unacknowledgedEventHangs : Obligations.UnacknowledgedEventHangs := by
  intro s turns h hp hok
  have start : SameButRecords s { s with schedule := turns } := ⟨turns, s.readLog, s.idleSeen, rfl⟩
  obtain ⟨t, run, _, _, _, rfl⟩ := run_turns (P := SameButRecords s) (fun _ l waiting => waiting.withSchedule l)
    (fun _ _ waiting ha => takeTurn_waiting hp waiting ha) turns hok rfl start
  exact ⟨_, run, hp, h.busy_of_phase hp (by decide), h.progvPhase.2 hp, rfl⟩

end Sys2Proof.Machine
end
